-- ==== Sys2Proof/Word.lean ====
section
/-! DEFINITION. The word types of the x318 CHIP-8 core (spec/00_scope.md R7, R8, R14) and the plainest operations on them. -/

namespace Sys2Proof

/-- An 8-bit unsigned value: a general register, a timer, a memory cell (R6 `XLEN`, `TIMER_W`). -/
abbrev Byte := BitVec 8

/-- A 16-bit unsigned value: an instruction word, `PC`, `I`, a stack entry (R6 `PC_W`, `I_W`). -/
abbrev Word := BitVec 16

/-- A general register's index, 0x0 to 0xF (R14, R21): a 4-bit field can name every register and nothing else. -/
abbrev Reg := Fin 16

/-- `FLAG_REG`, the index of the flag register (R6, R22). -/
abbrev VF : Reg := 15

/-- `hi ++ lo`: two bytes as a word, the first one high (R8, R63). -/
def Word.ofBytes (hi lo : Byte) : Word := hi ++ lo

/-- The high byte of a word, `w[15:8]`. -/
def Word.hiByte (w : Word) : Byte := w.extractLsb' 8 8

/-- The low byte of a word, `w[7:0]`. -/
def Word.loByte (w : Word) : Byte := w.extractLsb' 0 8

/-- A word from its four nibbles, the first one highest (R8). -/
def Word.ofNibbles (a b c d : BitVec 4) : Word := a ++ b ++ c ++ d

/-- A flag's value in an 8-bit register: 1 or 0 (R38). -/
def Byte.ofFlag (b : Bool) : Byte := if b then 1 else 0

end Sys2Proof
end

