-- ==== Sys2Proof/Config.lean ====
section
/-! DEFINITION. The parameters of the core (spec/00_scope.md R6) and its free inputs: what is fixed for one core, and what the spec leaves open. -/

namespace Sys2Proof

/-- The two values of the parameter `SHIFT_SRC` (R6, decision D8): which register `SHR` and `SHL` read. -/
inductive ShiftSrc where
  | x
  | y
deriving DecidableEq, Repr, Inhabited

/-- What the host presents at one tick (spec/10_state.md R40): `keys[15:0]`, bit `k` for key `k`, and `rnd[7:0]`. -/
structure TickInput where
  keys : BitVec 16
  rnd  : Byte
deriving DecidableEq, Repr, Inhabited

namespace Config

/-- `MEM_SIZE` (R6): addresses 0x000 to 0xFFF. -/
def memSize : Nat := 4096

/-- `PROG_BASE` (R6): load address of the program image and reset value of `PC`. -/
def progBase : Word := 0x200

/-- `FONT_BASE` (R6, conflict C1, decision D10): address of glyph 0. -/
def fontBase : Nat := 0x000

/-- `GLYPH_BYTES` (R6). -/
def glyphBytes : Nat := 5

/-- `STACK_DEPTH` (R6). -/
def stackDepth : Nat := 16

/-- `FB_W` (R6). -/
def fbWidth : Nat := 64

/-- `FB_H` (R6). -/
def fbHeight : Nat := 32

/-- `ADDI_FLAG_THRESHOLD` (R6, R202; U5 asks for a named constant). -/
def addIFlagThreshold : Word := 0x0F00

/-- `SHIFT_SRC` (R6, R180): OPEN in the spec, so an uninterpreted constant (log 3). -/
opaque shiftSrc : ShiftSrc

/-- The inputs of the `n`-th tick for which `State.inputs` holds none: free, under no law (R305, R39, D13; log 1). -/
opaque freeInput : Nat → TickInput

/-- `FONT` (R6, spec/20_memory.md R67): 16 glyphs of 5 bytes, top row first. A *parameter* of the spec (U11), so an uninterpreted
constant (log 4). -/
opaque font : Vector Byte 80

/-- R67's default value of `FONT`, glyphs 0 to 7. PRESUMED (log 4): no meaning and no reset value uses it. -/
def defaultFontLow : List Byte :=
  [0xF0, 0x90, 0x90, 0x90, 0xF0,  0x20, 0x60, 0x20, 0x20, 0x70,
   0xF0, 0x10, 0xF0, 0x80, 0xF0,  0xF0, 0x10, 0xF0, 0x10, 0xF0,
   0x90, 0x90, 0xF0, 0x10, 0x10,  0xF0, 0x80, 0xF0, 0x10, 0xF0,
   0xF0, 0x80, 0xF0, 0x90, 0xF0,  0xF0, 0x10, 0x20, 0x40, 0x40]

/-- R67's default value of `FONT`, glyphs 8 to F. PRESUMED (log 4). -/
def defaultFontHigh : List Byte :=
  [0xF0, 0x90, 0xF0, 0x90, 0xF0,  0xF0, 0x90, 0xF0, 0x10, 0xF0,
   0xF0, 0x90, 0xF0, 0x90, 0x90,  0xE0, 0x90, 0xE0, 0x90, 0xE0,
   0xF0, 0x80, 0x80, 0x80, 0xF0,  0xE0, 0x90, 0x90, 0x90, 0xE0,
   0xF0, 0x80, 0xF0, 0x80, 0xF0,  0xF0, 0x80, 0xF0, 0x80, 0x80]

/-- R67's default value of `FONT`: the value a claim about glyph shapes is stated against. -/
def defaultFont : Vector Byte 80 := ⟨(defaultFontLow ++ defaultFontHigh).toArray, rfl⟩

end Config

end Sys2Proof
end

