-- ==== Sys2Proof/Syntax.lean ====
section
/-! DEFINITION. The instructions: one constructor per row of spec/opcode_table.json (spec/30_encoding.md R94, in its order, and R100). -/

namespace Sys2Proof

/-- The 34 instructions of R94 and the unrecognized word of R100. `x`, `y` are register fields, `kk` an 8-bit immediate,
`nnn` a 12-bit address, `n` a count of sprite rows (R91, R92). -/
inductive Instr where
  /-- `CLS`, 00E0. -/
  | cls
  /-- `RET`, 00EE. -/
  | ret
  /-- `JP nnn`, 1nnn. -/
  | jp (nnn : BitVec 12)
  /-- `CALL nnn`, 2nnn. -/
  | call (nnn : BitVec 12)
  /-- `SE Vx, kk`, 3xkk. -/
  | seImm (x : Reg) (kk : Byte)
  /-- `SNE Vx, kk`, 4xkk. -/
  | sneImm (x : Reg) (kk : Byte)
  /-- `SE Vx, Vy`, 5xy0. -/
  | seReg (x y : Reg)
  /-- `SNE Vx, Vy`, 9xy0. -/
  | sneReg (x y : Reg)
  /-- `LD Vx, kk`, 6xkk. -/
  | ldImm (x : Reg) (kk : Byte)
  /-- `ADD Vx, kk`, 7xkk. -/
  | addImm (x : Reg) (kk : Byte)
  /-- `LD Vx, Vy`, 8xy0. -/
  | ldReg (x y : Reg)
  /-- `OR Vx, Vy`, 8xy1. -/
  | orReg (x y : Reg)
  /-- `AND Vx, Vy`, 8xy2. -/
  | andReg (x y : Reg)
  /-- `XOR Vx, Vy`, 8xy3. -/
  | xorReg (x y : Reg)
  /-- `ADD Vx, Vy`, 8xy4. -/
  | addReg (x y : Reg)
  /-- `SUB Vx, Vy`, 8xy5. -/
  | subReg (x y : Reg)
  /-- `SUBN Vx, Vy`, 8xy7. -/
  | subnReg (x y : Reg)
  /-- `SHR Vx, Vy`, 8xy6. -/
  | shr (x y : Reg)
  /-- `SHL Vx, Vy`, 8xyE. -/
  | shl (x y : Reg)
  /-- `LD I, nnn`, Annn. -/
  | ldI (nnn : BitVec 12)
  /-- `JP V0, nnn`, Bnnn. -/
  | jpV0 (nnn : BitVec 12)
  /-- `RND Vx, kk`, Cxkk. -/
  | rnd (x : Reg) (kk : Byte)
  /-- `DRW Vx, Vy, n`, Dxyn. -/
  | drw (x y : Reg) (n : Fin 16)
  /-- `SKP Vx`, Ex9E. -/
  | skp (x : Reg)
  /-- `SKNP Vx`, ExA1. -/
  | sknp (x : Reg)
  /-- `LD Vx, DT`, Fx07. -/
  | ldVxDT (x : Reg)
  /-- `LD Vx, K`, Fx0A. -/
  | ldVxK (x : Reg)
  /-- `LD DT, Vx`, Fx15. -/
  | ldDTVx (x : Reg)
  /-- `LD ST, Vx`, Fx18. -/
  | ldSTVx (x : Reg)
  /-- `ADD I, Vx`, Fx1E. -/
  | addI (x : Reg)
  /-- `LD F, Vx`, Fx29. -/
  | ldF (x : Reg)
  /-- `LD B, Vx`, Fx33. -/
  | ldB (x : Reg)
  /-- `LD [I], Vx`, Fx55. -/
  | store (x : Reg)
  /-- `LD Vx, [I]`, Fx65. -/
  | load (x : Reg)
  /-- `UNREC`: a word that matches none of the 34 rows (R100); the word is kept so that encoding gives it back (log 13). -/
  | unrec (w : Word)
deriving DecidableEq, Repr

end Sys2Proof
end

