-- ==== Sys2Proof/WellFormed.lean ====
section
/-! DEFINITION. Which instruction terms stand for words of the machine: every field's range is in its type, so the one check left
is that an unrecognized word is none of the 34 rows (spec/30_encoding.md R94, R100). -/

namespace Sys2Proof

/-- One row of R94: a word `w` selects it when `w & mask = match`. -/
structure Pattern where
  mask : Word
  bits : Word
deriving DecidableEq, Repr

/-- `w & mask = match` (R94). -/
def Pattern.selects (p : Pattern) (w : Word) : Bool := w &&& p.mask == p.bits

/-- R94, rows 1 to 19. -/
def patternsLow : List Pattern :=
  [⟨0xFFFF, 0x00E0⟩, ⟨0xFFFF, 0x00EE⟩, ⟨0xF000, 0x1000⟩, ⟨0xF000, 0x2000⟩, ⟨0xF000, 0x3000⟩,
   ⟨0xF000, 0x4000⟩, ⟨0xF00F, 0x5000⟩, ⟨0xF00F, 0x9000⟩, ⟨0xF000, 0x6000⟩, ⟨0xF000, 0x7000⟩,
   ⟨0xF00F, 0x8000⟩, ⟨0xF00F, 0x8001⟩, ⟨0xF00F, 0x8002⟩, ⟨0xF00F, 0x8003⟩, ⟨0xF00F, 0x8004⟩,
   ⟨0xF00F, 0x8005⟩, ⟨0xF00F, 0x8007⟩, ⟨0xF00F, 0x8006⟩, ⟨0xF00F, 0x800E⟩]

/-- R94, rows 20 to 34. -/
def patternsHigh : List Pattern :=
  [⟨0xF000, 0xA000⟩, ⟨0xF000, 0xB000⟩, ⟨0xF000, 0xC000⟩, ⟨0xF000, 0xD000⟩, ⟨0xF0FF, 0xE09E⟩,
   ⟨0xF0FF, 0xE0A1⟩, ⟨0xF0FF, 0xF007⟩, ⟨0xF0FF, 0xF00A⟩, ⟨0xF0FF, 0xF015⟩, ⟨0xF0FF, 0xF018⟩,
   ⟨0xF0FF, 0xF01E⟩, ⟨0xF0FF, 0xF029⟩, ⟨0xF0FF, 0xF033⟩, ⟨0xF0FF, 0xF055⟩, ⟨0xF0FF, 0xF065⟩]

/-- The 34 rows of R94, in its order. -/
def patterns : List Pattern := patternsLow ++ patternsHigh

/-- A word that selects a row of R94 is recognized; every other word is not (R100, R102). -/
def recognized (w : Word) : Bool := patterns.any (·.selects w)

/-- An instruction term that some word stands for: an `unrec` holds a word that no row of R94 selects. -/
def Instr.wellFormed : Instr → Bool
  | .unrec w => !recognized w
  | .cls | .ret | .jp _ | .call _ | .seImm _ _ | .sneImm _ _ | .seReg _ _ | .sneReg _ _ => true
  | .ldImm _ _ | .addImm _ _ | .ldReg _ _ | .orReg _ _ | .andReg _ _ | .xorReg _ _ => true
  | .addReg _ _ | .subReg _ _ | .subnReg _ _ | .shr _ _ | .shl _ _ => true
  | .ldI _ | .jpV0 _ | .rnd _ _ | .drw _ _ _ | .skp _ | .sknp _ => true
  | .ldVxDT _ | .ldVxK _ | .ldDTVx _ | .ldSTVx _ | .addI _ | .ldF _ | .ldB _ | .store _ | .load _ => true

end Sys2Proof
end

