-- ==== Sys2Proof/Decode.lean ====
section
/-! DEFINITION. Decoding, total on any bytes (spec/30_encoding.md R90 to R95, R100, R102), and the encoder. -/

namespace Sys2Proof

/-! ## The fields of a word (R91) -/

/-- `op = w[15:12]`, the family. -/
def opField (w : Word) : BitVec 4 := w.extractLsb' 12 4

/-- `w[11:8]` as four bits. -/
def xBits (w : Word) : BitVec 4 := w.extractLsb' 8 4

/-- `w[7:4]` as four bits. -/
def yBits (w : Word) : BitVec 4 := w.extractLsb' 4 4

/-- `n = w[3:0]` as four bits. -/
def nBits (w : Word) : BitVec 4 := w.extractLsb' 0 4

/-- `x = w[11:8]`, a register index. -/
def xField (w : Word) : Reg := (xBits w).toFin

/-- `y = w[7:4]`, a register index. -/
def yField (w : Word) : Reg := (yBits w).toFin

/-- `n = w[3:0]`, a count of sprite rows. -/
def nField (w : Word) : Fin 16 := (nBits w).toFin

/-- `kk = w[7:0]`, an immediate. -/
def kkField (w : Word) : Byte := w.extractLsb' 0 8

/-- `nnn = w[11:0]`, an address. -/
def nnnField (w : Word) : BitVec 12 := w.extractLsb' 0 12

/-! ## The families (R95) -/

/-- Family 0: `CLS`, `RET`, otherwise unrecognized. -/
def decode0 (w : Word) : Instr :=
  if w = 0x00E0 then .cls else if w = 0x00EE then .ret else .unrec w

/-- Family 8: by the last nibble. -/
def decode8 (w : Word) : Instr :=
  match nBits w with
  | 0x0 => .ldReg (xField w) (yField w)
  | 0x1 => .orReg (xField w) (yField w)
  | 0x2 => .andReg (xField w) (yField w)
  | 0x3 => .xorReg (xField w) (yField w)
  | 0x4 => .addReg (xField w) (yField w)
  | 0x5 => .subReg (xField w) (yField w)
  | 0x6 => .shr (xField w) (yField w)
  | 0x7 => .subnReg (xField w) (yField w)
  | 0xE => .shl (xField w) (yField w)
  | _ => .unrec w

/-- Family E: by the low byte. -/
def decodeE (w : Word) : Instr :=
  match kkField w with
  | 0x9E => .skp (xField w)
  | 0xA1 => .sknp (xField w)
  | _ => .unrec w

/-- Family F: by the low byte. -/
def decodeF (w : Word) : Instr :=
  match kkField w with
  | 0x07 => .ldVxDT (xField w)
  | 0x0A => .ldVxK (xField w)
  | 0x15 => .ldDTVx (xField w)
  | 0x18 => .ldSTVx (xField w)
  | 0x1E => .addI (xField w)
  | 0x29 => .ldF (xField w)
  | 0x33 => .ldB (xField w)
  | 0x55 => .store (xField w)
  | 0x65 => .load (xField w)
  | _ => .unrec w

/-- The instruction a word selects, by its first nibble (R95); a word that selects none is unrecognized (R100). -/
def decodeWord (w : Word) : Instr :=
  match opField w with
  | 0x0 => decode0 w
  | 0x1 => .jp (nnnField w)
  | 0x2 => .call (nnnField w)
  | 0x3 => .seImm (xField w) (kkField w)
  | 0x4 => .sneImm (xField w) (kkField w)
  | 0x5 => if nBits w = 0 then .seReg (xField w) (yField w) else .unrec w
  | 0x6 => .ldImm (xField w) (kkField w)
  | 0x7 => .addImm (xField w) (kkField w)
  | 0x8 => decode8 w
  | 0x9 => if nBits w = 0 then .sneReg (xField w) (yField w) else .unrec w
  | 0xA => .ldI (nnnField w)
  | 0xB => .jpV0 (nnnField w)
  | 0xC => .rnd (xField w) (kkField w)
  | 0xD => .drw (xField w) (yField w) (nField w)
  | 0xE => decodeE w
  | _ => decodeF w

/-- Why a list of bytes is no instruction: decoding itself rejects no word (R102), so only the bytes can be missing. -/
inductive DecodeError where
  /-- Fewer than two bytes: an instruction is always two (R90). -/
  | truncated
deriving DecidableEq, Repr

/-- The first instruction of a list of bytes and the bytes after it: two bytes, high byte first (R90, R63). -/
def decode : List Byte → Except DecodeError (Instr × List Byte)
  | hi :: lo :: rest => .ok (decodeWord (Word.ofBytes hi lo), rest)
  | _ => .error .truncated

/-! ## The encoder (R94) -/

/-- Format `NNN` (R93). -/
def encodeNNN (op : BitVec 4) (nnn : BitVec 12) : Word := op ++ nnn

/-- Format `XKK` (R93). -/
def encodeXKK (op : BitVec 4) (x : Reg) (kk : Byte) : Word := op ++ BitVec.ofFin (w := 4) x ++ kk

/-- Formats `XYS` and `XYN` (R93). -/
def encodeXYN (op : BitVec 4) (x y : Reg) (n : BitVec 4) : Word :=
  Word.ofNibbles op (BitVec.ofFin (w := 4) x) (BitVec.ofFin (w := 4) y) n

/-- The word of an instruction (R94). -/
def encodeWord : Instr → Word
  | .cls => 0x00E0
  | .ret => 0x00EE
  | .jp nnn => encodeNNN 0x1 nnn
  | .call nnn => encodeNNN 0x2 nnn
  | .seImm x kk => encodeXKK 0x3 x kk
  | .sneImm x kk => encodeXKK 0x4 x kk
  | .seReg x y => encodeXYN 0x5 x y 0x0
  | .sneReg x y => encodeXYN 0x9 x y 0x0
  | .ldImm x kk => encodeXKK 0x6 x kk
  | .addImm x kk => encodeXKK 0x7 x kk
  | .ldReg x y => encodeXYN 0x8 x y 0x0
  | .orReg x y => encodeXYN 0x8 x y 0x1
  | .andReg x y => encodeXYN 0x8 x y 0x2
  | .xorReg x y => encodeXYN 0x8 x y 0x3
  | .addReg x y => encodeXYN 0x8 x y 0x4
  | .subReg x y => encodeXYN 0x8 x y 0x5
  | .subnReg x y => encodeXYN 0x8 x y 0x7
  | .shr x y => encodeXYN 0x8 x y 0x6
  | .shl x y => encodeXYN 0x8 x y 0xE
  | .ldI nnn => encodeNNN 0xA nnn
  | .jpV0 nnn => encodeNNN 0xB nnn
  | .rnd x kk => encodeXKK 0xC x kk
  | .drw x y n => encodeXYN 0xD x y (BitVec.ofFin (w := 4) n)
  | .skp x => encodeXKK 0xE x 0x9E
  | .sknp x => encodeXKK 0xE x 0xA1
  | .ldVxDT x => encodeXKK 0xF x 0x07
  | .ldVxK x => encodeXKK 0xF x 0x0A
  | .ldDTVx x => encodeXKK 0xF x 0x15
  | .ldSTVx x => encodeXKK 0xF x 0x18
  | .addI x => encodeXKK 0xF x 0x1E
  | .ldF x => encodeXKK 0xF x 0x29
  | .ldB x => encodeXKK 0xF x 0x33
  | .store x => encodeXKK 0xF x 0x55
  | .load x => encodeXKK 0xF x 0x65
  | .unrec w => w

/-- The bytes of an instruction as memory holds them, high byte first (R63, R90). -/
def encode (i : Instr) : List Byte := [(encodeWord i).hiByte, (encodeWord i).loByte]

/-! ## The table's words -/

/-- The word of an instruction whose bits spec/opcode_table.json numbers `w`, `nbits` of them given, the others 0. -/
def tableWord (nbits w : Nat) : Word := BitVec.ofNat 16 (w % 2 ^ nbits)

/-- The instruction the decoder reads from the table's word, laid out as memory holds it (high byte at the lower address). -/
def decodeTableWord (nbits w : Nat) : Option Instr :=
  match decode [(tableWord nbits w).hiByte, (tableWord nbits w).loByte] with
  | .ok (i, _) => some i
  | .error _ => none

end Sys2Proof
end

