-- ==== Sys2Proof/Machine/State.lean ====
section
/-! DEFINITION. The complete state of the core (spec/10_state.md R20), its reset values (R43), and the reasons a step could stop. -/

namespace Sys2Proof.Machine

/-- Memory, `MEM[0x000]` to `MEM[0xFFF]` (R31): the bytes that differ from the reset contents, addresses strictly rising.
Reading, writing and the canonical form are in Machine/Memory.lean. -/
abbrev Memory := List Host.Cell

/-- `FB` (R32): 32 rows of 64 one-bit pixels; `FB[row][col]` is bit `col` of row `row`. -/
abbrev Framebuffer := Vector (BitVec 64) 32

/-- The five faults of spec/60_exceptions.md R261. A fault is TAKEN: it is latched in the state and is no stop of the model. -/
inductive FaultKind where
  /-- Code 1: a `CALL` at `SP = 16` (R262). -/
  | stackOverflow
  /-- Code 2: a `RET` at `SP = 0` (R263). -/
  | stackUnderflow
  /-- Code 3: an effective address above 0xFFF (R265). -/
  | memFault
  /-- Code 4: a fetch at `PC > 0xFFE` (R264). -/
  | fetchFault
  /-- Code 5: a key index above 15 (R267). -/
  | keyIndexFault
deriving DecidableEq, Repr

/-- The machine's state: the fifteen rows of R20, then four fields of the model's own. -/
structure State where
  /-- `V`, the general registers (R21). -/
  v : Vector Byte 16
  /-- `I`, the index register (R26). -/
  i : Word
  /-- `PC` (R24). -/
  pc : Word
  /-- `SP`, 0 to 16 (R27). -/
  sp : Fin 17
  /-- `STACK` (R28). -/
  stack : Vector Word 16
  /-- `DT`, the delay timer (R29). -/
  dt : Byte
  /-- `ST`, the sound timer (R30). -/
  st : Byte
  /-- `MEM` (R31). -/
  mem : Memory
  /-- `FB` (R32). -/
  fb : Framebuffer
  /-- `CHANGED`, the dirty-flag latch (R33). -/
  changed : Bool
  /-- `KEYS`, bit `k` for key `k` (R34). -/
  keys : BitVec 16
  /-- `WAIT` (R35). -/
  wait : Bool
  /-- `WAIT_REG` (R35). -/
  waitReg : Reg
  /-- `FAULT` (R36): `none` is the code 0, no fault. -/
  fault : Option FaultKind
  /-- `FAULT_INFO` (R36). -/
  faultInfo : Word
  /-- The model's own: the value of the port `rnd` sampled at the present tick (R40; log 2). -/
  rnd : Byte
  /-- The model's own: the inputs of the coming ticks, oldest first (R40, R305; log 1). -/
  inputs : List TickInput
  /-- The model's own: the index of the next tick's free input (log 1). -/
  draws : Nat
  /-- The model's own: true from reset to the first tick, while the loader may write (R41, R305; log 12). -/
  loading : Bool
deriving DecidableEq, Repr

/-- Reasons a step stops with a fault: none. Every fault of the spec is a next state (R266, R121), so nothing raises one;
that errs in no direction, since no behaviour is cut off (log 9). -/
inductive Fault
deriving DecidableEq, Repr

/-- Reasons a move has no meaning. -/
inductive Refusal where
  /-- Raised by an arm of `exec` for an instruction without a meaning; no arm raises it. Safe: the run stops. -/
  | notModelled (mnemonic : String)
  /-- Raised by `hostMove` for a loader write after the first tick or below 0x200, to which the spec gives no meaning
  (R305, U9, U17); no step raises it. Safe: the run stops. -/
  | loaderBreach
deriving DecidableEq, Repr

/-- The outcome of an instruction or of a step. -/
abbrev Result := Host.Outcome State Fault Refusal

/-- The state right after reset (R43, R300). -/
def State.reset : State where
  v := Vector.replicate 16 0
  i := 0
  pc := Config.progBase
  sp := 0
  stack := Vector.replicate 16 0
  dt := 0
  st := 0
  mem := []
  fb := Vector.replicate 32 0
  changed := false
  keys := 0
  wait := false
  waitReg := 0
  fault := none
  faultInfo := 0
  rnd := 0
  inputs := []
  draws := 0
  loading := true

end Sys2Proof.Machine
end

