-- ==== Sys2Proof/Machine/Memory.lean ====
section
/-! DEFINITION. Memory: its contents after reset, reading and writing one byte, the canonical form (spec/20_memory.md R60, R61, R67). -/

namespace Sys2Proof.Machine

/-- The reset contents (R43, R61) for a value of the parameter `FONT`: its 80 bytes from `FONT_BASE` (R67), else 0. -/
def Memory.resetContents (font : Vector Byte 80) (a : Nat) : Byte :=
  if h : Config.fontBase ≤ a ∧ a - Config.fontBase < 80 then font[a - Config.fontBase] else 0

/-- What an address that memory does not list reads as: the reset contents. -/
def Memory.resetByte (a : Nat) : Byte := Memory.resetContents Config.font a

/-- `MEM[a]`. -/
def Memory.read : Memory → Nat → Byte
  | [], a => Memory.resetByte a
  | (k, b) :: m, a => if k = a then b else Memory.read m a

/-- Put a cell before the first one with a larger address. -/
def Memory.insert : Memory → Nat → Byte → Memory
  | [], a, b => [(a, b)]
  | (k, c) :: m, a, b => if a < k then (a, b) :: (k, c) :: m else (k, c) :: Memory.insert m a b

/-- `MEM[a] <- b`: what was listed at `a` goes; `b` is listed unless it is the reset contents. -/
def Memory.write (m : Memory) (a : Nat) (b : Byte) : Memory :=
  let rest := m.filter (fun c => c.1 != a)
  if b = Memory.resetByte a then rest else Memory.insert rest a b

/-- `MEM[a + j] <- bs[j]` for every `j`, ascending (R63, R204, R205). -/
def Memory.writeBytes : Memory → Nat → List Byte → Memory
  | m, _, [] => m
  | m, a, b :: bs => Memory.writeBytes (Memory.write m a b) (a + 1) bs

/-- The canonical form: addresses strictly rising, each one an address of the machine (R60), and no byte that an unlisted
address would read as. -/
abbrev Memory.wf (m : Memory) : Prop :=
  (m.map Prod.fst).Pairwise (· < ·) ∧ ∀ c ∈ m, c.1 < Config.memSize ∧ c.2 ≠ Memory.resetByte c.1

end Sys2Proof.Machine
end

