-- ==== Sys2Proof/Machine/Ops.lean ====
section
/-! DEFINITION. The operations every meaning is made of: registers, directives, taking a fault, the range test, the framebuffer,
and the host's side of a tick. -/

namespace Sys2Proof.Machine

/-! ## Registers (spec/00_scope.md R10, spec/10_state.md R21) -/

/-- `V[x]`. -/
def State.reg (s : State) (x : Reg) : Byte := s.v[x]

/-- `V[x] <- b`. No register is hardwired (R21). -/
def State.setReg (s : State) (x : Reg) (b : Byte) : State :=
  { s with v := s.v.set x.val b x.isLt }

/-- `VF <- f` and then `V[x] <- b` (spec/42_alu.md R170): when `x = 0xF` the result stays and the flag is lost. -/
def State.setFlagThenReg (s : State) (f : Bool) (x : Reg) (b : Byte) : State :=
  (s.setReg VF (Byte.ofFlag f)).setReg x b

/-! ## The call stack (spec/10_state.md R27, R28) -/

/-- `STACK[SP] <- a; SP <- SP + 1`; `none` when 16 addresses are already stacked. -/
def State.push (s : State) (a : Word) : Option State :=
  if h : s.sp.val < Config.stackDepth then
    some { s with stack := s.stack.set s.sp.val a h, sp := ⟨s.sp.val + 1, Nat.succ_lt_succ h⟩ }
  else none

/-- `SP <- SP - 1`, and the entry it then names, which stays as it is; `none` when the stack is empty. -/
def State.pop (s : State) : Option (Word × State) :=
  if 0 < s.sp.val then
    some (s.stack[s.sp.val - 1]'(by omega), { s with sp := ⟨s.sp.val - 1, by omega⟩ })
  else none

/-! ## Directives (spec/00_scope.md R13, spec/40_execution_cycle.md R131) -/

/-- The three directives. -/
inductive Directive where
  | advance
  | skip
  | jumpTo (a : Word)
deriving DecidableEq, Repr

/-- `PC` after a directive; the additions are modulo 2^16. -/
def Directive.nextPc : Directive → Word → Word
  | .advance, pc => pc + 2
  | .skip, pc => pc + 4
  | .jumpTo a, _ => a

/-- An instruction completes: its other writes are in `s`, and the directive is applied last (R131). -/
def complete (d : Directive) (s : State) : Result :=
  .next { s with pc := d.nextPc s.pc }

/-- The directive of a skip instruction (R131). -/
def skipIf (b : Bool) : Directive := if b then .skip else .advance

/-! ## Taking a fault (R12, spec/60_exceptions.md R261, R266) -/

/-- `FAULT`'s code (R261). -/
def FaultKind.code : FaultKind → BitVec 3
  | .stackOverflow => 1
  | .stackUnderflow => 2
  | .memFault => 3
  | .fetchFault => 4
  | .keyIndexFault => 5

/-- `raise k(info)`, given the state before the instruction: none of the instruction's writes take place, `PC` keeps the
faulting address, `FAULT` and `FAULT_INFO` are latched (R12, R266). There is no return from a fault but `rst` (R269). -/
def raise (k : FaultKind) (info : Word) (s : State) : Result :=
  .next { s with fault := some k, faultInfo := info }

/-- A halted core: `FAULT != 0` (R18, R266). -/
def State.halted (s : State) : Bool := s.fault.isSome

/-- `rst` (spec/70_reset_and_hazards.md R300, R301): every piece of the core's state at its reset value; what the host will
present at the coming ticks is not the core's and stays (log 1). -/
def State.hostReset (s : State) : State :=
  { State.reset with inputs := s.inputs, draws := s.draws }

/-! ## The range test (spec/20_memory.md R70 to R72) -/

/-- `k = 0 or base + k - 1 <= 0xFFF`, on unbounded integers. -/
def inRange (base : Word) (k : Nat) : Bool := k == 0 || base.toNat + k - 1 < Config.memSize

/-- The lowest out-of-range effective address of an access that fails the test (R71). -/
def faultAddr (base : Word) : Word := if base.toNat < Config.memSize then 0x1000 else base

/-- An instruction that accesses `k` bytes from `I` tests the whole range before the first access: out of range it raises
`MemFault` and does nothing else (R72, R265). -/
def withRange (k : Nat) (s : State) (body : Result) : Result :=
  if inRange s.i k then body else raise .memFault (faultAddr s.i) s

/-! ## The framebuffer (spec/10_state.md R32) -/

/-- `FB[row][col]`. -/
def Framebuffer.pixel (fb : Framebuffer) (row : Fin 32) (col : Fin 64) : Bool := fb[row].getLsbD col.val

/-- `FB[row][col] <- FB[row][col] ^ bit`. -/
def Framebuffer.xorPixel (fb : Framebuffer) (row : Fin 32) (col : Fin 64) (bit : Bool) : Framebuffer :=
  fb.set row.val (fb[row] ^^^ ((BitVec.ofBool bit).setWidth 64 <<< col.val)) row.isLt

/-- All cells 0 (spec/44_display.md R221). -/
def Framebuffer.blank : Framebuffer := Vector.replicate 32 0

/-! ## The fetch (spec/40_execution_cycle.md R125, spec/20_memory.md R63, R64) -/

/-- `MemRead(PC, 2)`: the byte at the lower address is the high one; `none` when `PC > 0xFFE`. -/
def State.fetchWord (s : State) : Option Word :=
  if s.pc.toNat + 1 < Config.memSize then
    some (Word.ofBytes (s.mem.read s.pc.toNat) (s.mem.read (s.pc.toNat + 1)))
  else none

/-! ## The host's side of a tick (spec/10_state.md R40, spec/70_reset_and_hazards.md R305; log 1) -/

/-- The inputs presented at the coming tick: the first listed, else free. -/
def State.nextInput (s : State) : TickInput :=
  match s.inputs with
  | inp :: _ => inp
  | [] => Config.freeInput s.draws

/-- A tick has taken its inputs: they are gone from the list, the free inputs move on, and loading is over (R41). -/
def State.takeInput (s : State) : State :=
  { s with inputs := s.inputs.tail, draws := s.draws + 1, loading := false }

end Sys2Proof.Machine
end

