-- ==== Sys2Proof/Machine/Operands.lean ====
section
/-! DEFINITION. Every operand form of the instruction set (spec/30_encoding.md R92, spec/43_index_and_memory.md R207,
spec/42_alu.md R180). A register operand is `State.reg`, an immediate is its field as it stands. -/

namespace Sys2Proof.Machine

/-- `zext_16(nnn)`: a 12-bit address as a value of `PC` or `I` (R92). -/
def addrOperand (nnn : BitVec 12) : Word := nnn.setWidth 16

/-- `zext_16(b)`: a byte as a 16-bit value (R158, R202, R203, R261). -/
def zextByte (b : Byte) : Word := b.setWidth 16

/-- The source register's value of `SHR` and `SHL`, for a value of `SHIFT_SRC` (R180, R181). -/
def State.shiftSource (src : ShiftSrc) (s : State) (x y : Reg) : Byte :=
  match src with
  | .x => s.reg x
  | .y => s.reg y

/-- `I + k`, the effective address of the `k`-th byte of a data access, never reduced (R70). -/
def State.dataAddr (s : State) (k : Nat) : Nat := s.i.toNat + k

/-- The `k`-th byte of a data access, `MemRead(I + k, 1)`; used after the range test. -/
def State.dataByte (s : State) (k : Nat) : Byte := s.mem.read (s.dataAddr k)

/-- `V[0]` to `V[x]`, ascending (R205). -/
def State.regsUpTo (s : State) (x : Reg) : List Byte := s.v.toList.take (x.val + 1)

/-- The three decimal digits of a byte: hundreds, tens, units (R204). -/
def bcdDigits (b : Byte) : List Byte := [b / 100, b / 10 % 10, b % 10]

/-- Store a list of bytes at `I` upward (R204, R205). -/
def State.storeAtI (s : State) (bs : List Byte) : State :=
  { s with mem := s.mem.writeBytes (s.dataAddr 0) bs }

/-- `V[k] <- MEM[I + k]` for `k` from 0 to `x` (R206). -/
def State.loadRegs (s : State) (x : Reg) : State :=
  { s with v := Vector.ofFn fun k : Reg => if k.val ≤ x.val then s.dataByte k.val else s.reg k }

/-- Key `k`'s level at this tick (R34, R241); `k` is a key index, 0 to 15. -/
def State.keyDown (s : State) (k : Byte) : Bool := s.keys.getLsbD k.toNat

/-- Whether a register's value is a key index (R241). -/
def isKeyIndex (k : Byte) : Bool := k.toNat ≤ 15

/-- Whether any key is pressed (R123). -/
def State.anyKey (s : State) : Bool := s.keys != 0

/-- The least pressed key: scan 0 to 15 ascending (R123). -/
def State.leastKey (s : State) : Option Reg := (List.finRange 16).find? (fun k => s.keys.getLsbD k.val)

/-- The row of a sprite's `r`-th byte drawn at `vy`: `(vy + r) mod 32` (spec/44_display.md R223). -/
def spriteRow (vy : Byte) (r : Nat) : Fin 32 := Fin.ofNat 32 (vy.toNat + r)

/-- The column of a sprite's pixel `c` drawn at `vx`: `(vx + c) mod 64` (R223). -/
def spriteCol (vx : Byte) (c : Nat) : Fin 64 := Fin.ofNat 64 (vx.toNat + c)

/-- Pixel `c` of a sprite byte, 0 the leftmost: bit `7 - c` (R222). -/
def spriteBit (b : Byte) (c : Nat) : Bool := b.getLsbD (7 - c)

end Sys2Proof.Machine
end

