-- ==== Sys2Proof/Machine/Flags.lean ====
section
/-! DEFINITION. Every flag computation of the instruction set (spec/10_state.md R38). Each answers whether `VF` becomes 1. -/

namespace Sys2Proof.Machine

/-- `ADD Vx, Vy`: the exact sum exceeds 255 (spec/42_alu.md R177). -/
def carryFlag (a b : Byte) : Bool := decide (a.toNat + b.toNat > 255)

/-- `SUB`, `SUBN`: the minuend is strictly greater (R178, R179); equal operands give 0. -/
def greaterFlag (minuend subtrahend : Byte) : Bool := decide (minuend.toNat > subtrahend.toNat)

/-- `SHR`: bit 0 of the source (R180). -/
def lowBitFlag (src : Byte) : Bool := src.getLsbD 0

/-- `SHL`: bit 7 of the source (R181). -/
def highBitFlag (src : Byte) : Bool := src.getLsbD 7

/-- `ADD I, Vx`: the new index is greater than the threshold (spec/43_index_and_memory.md R202). -/
def indexFlag (newIndex : Word) : Bool := decide (newIndex.toNat > Config.addIFlagThreshold.toNat)

/-- `DRW`: a set pixel is about to be cleared (spec/44_display.md R223). -/
def collisionFlag (pixel bit : Bool) : Bool := pixel && bit

end Sys2Proof.Machine
end

