-- ==== Sys2Proof/Machine/Alu.lean ====
section
/-! DEFINITION. The register and ALU instructions (spec/42_alu.md). Operands are read before any write (R170). -/

namespace Sys2Proof.Machine

/-- `LD Vx, kk` (R171). -/
def execLdImm (x : Reg) (kk : Byte) (s : State) : Result :=
  complete .advance (s.setReg x kk)

/-- `ADD Vx, kk` (R172): modulo 256, no flag. -/
def execAddImm (x : Reg) (kk : Byte) (s : State) : Result :=
  complete .advance (s.setReg x (s.reg x + kk))

/-- `LD Vx, Vy` (R173). -/
def execLdReg (x y : Reg) (s : State) : Result :=
  complete .advance (s.setReg x (s.reg y))

/-- `OR Vx, Vy` (R174): `VF` is not cleared. -/
def execOrReg (x y : Reg) (s : State) : Result :=
  complete .advance (s.setReg x (s.reg x ||| s.reg y))

/-- `AND Vx, Vy` (R175). -/
def execAndReg (x y : Reg) (s : State) : Result :=
  complete .advance (s.setReg x (s.reg x &&& s.reg y))

/-- `XOR Vx, Vy` (R176). -/
def execXorReg (x y : Reg) (s : State) : Result :=
  complete .advance (s.setReg x (s.reg x ^^^ s.reg y))

/-- `ADD Vx, Vy` (R177). -/
def execAddReg (x y : Reg) (s : State) : Result :=
  complete .advance (s.setFlagThenReg (carryFlag (s.reg x) (s.reg y)) x (s.reg x + s.reg y))

/-- `SUB Vx, Vy` (R178): `V[x] - V[y]`. -/
def execSubReg (x y : Reg) (s : State) : Result :=
  complete .advance (s.setFlagThenReg (greaterFlag (s.reg x) (s.reg y)) x (s.reg x - s.reg y))

/-- `SUBN Vx, Vy` (R179): `V[y] - V[x]`. -/
def execSubnReg (x y : Reg) (s : State) : Result :=
  complete .advance (s.setFlagThenReg (greaterFlag (s.reg y) (s.reg x)) x (s.reg y - s.reg x))

/-- A shift right by one of a source value into `V[x]` (R180): logical, bit 7 of the result 0. -/
def shiftRight (x : Reg) (src : Byte) (s : State) : Result :=
  complete .advance (s.setFlagThenReg (lowBitFlag src) x (src >>> 1))

/-- A shift left by one of a source value into `V[x]` (R181): modulo 256, bit 0 of the result 0. -/
def shiftLeft (x : Reg) (src : Byte) (s : State) : Result :=
  complete .advance (s.setFlagThenReg (highBitFlag src) x (src <<< 1))

/-- `SHR Vx, Vy` (R180), its source chosen by the open parameter `SHIFT_SRC` (log 3). -/
def execShr (x y : Reg) (s : State) : Result :=
  shiftRight x (s.shiftSource Config.shiftSrc x y) s

/-- `SHL Vx, Vy` (R181), its source chosen by the open parameter `SHIFT_SRC` (log 3). -/
def execShl (x y : Reg) (s : State) : Result :=
  shiftLeft x (s.shiftSource Config.shiftSrc x y) s

/-- `RND Vx, kk` (R182): the byte is the tick's input `rnd`, under no law. -/
def execRnd (x : Reg) (kk : Byte) (s : State) : Result :=
  complete .advance (s.setReg x (s.rnd &&& kk))

end Sys2Proof.Machine
end

