-- ==== Sys2Proof/Machine/ControlFlow.lean ====
section
/-! DEFINITION. The control-flow instructions (spec/41_control_flow.md) and the unrecognized word (spec/30_encoding.md R100). -/

namespace Sys2Proof.Machine

/-- `RET` (R151): the popped address already is the one after the `CALL`. -/
def execRet (s : State) : Result :=
  match s.pop with
  | some (a, s') => complete (.jumpTo a) s'
  | none => raise .stackUnderflow s.pc s

/-- `JP nnn` (R152). -/
def execJp (nnn : BitVec 12) (s : State) : Result :=
  complete (.jumpTo (addrOperand nnn)) s

/-- `CALL nnn` (R153): the address after the `CALL` is pushed. -/
def execCall (nnn : BitVec 12) (s : State) : Result :=
  match s.push (s.pc + 2) with
  | some s' => complete (.jumpTo (addrOperand nnn)) s'
  | none => raise .stackOverflow s.pc s

/-- `SE Vx, kk` (R154). -/
def execSeImm (x : Reg) (kk : Byte) (s : State) : Result :=
  complete (skipIf (s.reg x == kk)) s

/-- `SNE Vx, kk` (R155). -/
def execSneImm (x : Reg) (kk : Byte) (s : State) : Result :=
  complete (skipIf (s.reg x != kk)) s

/-- `SE Vx, Vy` (R156). -/
def execSeReg (x y : Reg) (s : State) : Result :=
  complete (skipIf (s.reg x == s.reg y)) s

/-- `SNE Vx, Vy` (R157). -/
def execSneReg (x y : Reg) (s : State) : Result :=
  complete (skipIf (s.reg x != s.reg y)) s

/-- `JP V0, nnn` (R158): the sum is not reduced to 12 bits; the offset is always `V[0]`. -/
def execJpV0 (nnn : BitVec 12) (s : State) : Result :=
  complete (.jumpTo (addrOperand nnn + zextByte (s.reg 0))) s

/-- An unrecognized word (R100): no state is read or written, the counter advances. -/
def execUnrec (_w : Word) (s : State) : Result :=
  complete .advance s

end Sys2Proof.Machine
end

