-- ==== Sys2Proof/Machine/Display.lean ====
section
/-! DEFINITION. The display instructions (spec/44_display.md). -/

namespace Sys2Proof.Machine

/-- `CLS` (R221): `CHANGED` is set even when the framebuffer was all zero. -/
def execCls (s : State) : Result :=
  complete .advance { s with fb := Framebuffer.blank, changed := true }

/-- The framebuffer and the collision flag as a sprite is drawn (R223: `FB` and `coll`). -/
abbrev DrawState := Framebuffer × Bool

/-- One pixel of a sprite (R223): the collision is read before the pixel is toggled. -/
def drawPixel (row : Fin 32) (col : Fin 64) (bit : Bool) (d : DrawState) : DrawState :=
  (d.1.xorPixel row col bit, d.2 || collisionFlag (d.1.pixel row col) bit)

/-- One row of a sprite, byte `b` drawn as row `r` at (`vx`, `vy`): columns `c` from 0 to 7 (R223). -/
def drawByte (vx vy : Byte) (r : Nat) (b : Byte) (d : DrawState) : DrawState :=
  (List.range 8).foldl (fun d c => drawPixel (spriteRow vy r) (spriteCol vx c) (spriteBit b c) d) d

/-- A sprite's bytes drawn as rows `r`, `r + 1`, ... at (`vx`, `vy`) (R223). -/
def drawBytes (vx vy : Byte) : Nat → List Byte → DrawState → DrawState
  | _, [], d => d
  | r, b :: bs, d => drawBytes vx vy (r + 1) bs (drawByte vx vy r b d)

/-- The `n` sprite bytes at `I` (R222, R223). -/
def State.spriteBytes (s : State) (n : Nat) : List Byte := (List.range n).map s.dataByte

/-- `DRW Vx, Vy, n` (R223): both coordinates are read before `VF` is written; `n = 0` draws nothing and still writes
`VF` and `CHANGED`. -/
def execDrw (x y : Reg) (n : Fin 16) (s : State) : Result :=
  let d := drawBytes (s.reg x) (s.reg y) 0 (s.spriteBytes n.val) (s.fb, false)
  withRange n.val s (complete .advance ({ s with fb := d.1, changed := true }.setReg VF (Byte.ofFlag d.2)))

end Sys2Proof.Machine
end

