-- ==== Sys2Proof/Machine/IndexMem.lean ====
section
/-! DEFINITION. The index-register and memory instructions (spec/43_index_and_memory.md). None of the last three changes `I`. -/

namespace Sys2Proof.Machine

/-- `LD I, nnn` (R201). -/
def execLdI (nnn : BitVec 12) (s : State) : Result :=
  complete .advance { s with i := addrOperand nnn }

/-- `ADD I, Vx` (R202): modulo 2^16, the flag from the new `I`; `x = 0xF` adds the old `VF`. -/
def execAddI (x : Reg) (s : State) : Result :=
  complete .advance
    ({ s with i := s.i + zextByte (s.reg x) }.setReg VF (Byte.ofFlag (indexFlag (s.i + zextByte (s.reg x)))))

/-- `LD F, Vx` (R203): the whole register times 5, no base added. -/
def execLdF (x : Reg) (s : State) : Result :=
  complete .advance { s with i := zextByte (s.reg x) * BitVec.ofNat 16 Config.glyphBytes }

/-- `LD B, Vx` (R204). -/
def execLdB (x : Reg) (s : State) : Result :=
  withRange 3 s (complete .advance (s.storeAtI (bcdDigits (s.reg x))))

/-- `LD [I], Vx` (R205). -/
def execStore (x : Reg) (s : State) : Result :=
  withRange (x.val + 1) s (complete .advance (s.storeAtI (s.regsUpTo x)))

/-- `LD Vx, [I]` (R206). -/
def execLoad (x : Reg) (s : State) : Result :=
  withRange (x.val + 1) s (complete .advance (s.loadRegs x))

end Sys2Proof.Machine
end

