-- ==== Sys2Proof/Machine/KeysTimers.lean ====
section
/-! DEFINITION. The keypad and timer instructions (spec/45_keypad_and_timers.md). -/

namespace Sys2Proof.Machine

/-- A key test of `V[x]` (R241, R242): the whole byte is the index, and one above 15 raises `KeyIndexFault`. -/
def withKeyIndex (x : Reg) (s : State) (body : Result) : Result :=
  if isKeyIndex (s.reg x) then body else raise .keyIndexFault (zextByte (s.reg x)) s

/-- `SKP Vx` (R241). -/
def execSkp (x : Reg) (s : State) : Result :=
  withKeyIndex x s (complete (skipIf (s.keyDown (s.reg x))) s)

/-- `SKNP Vx` (R242). -/
def execSknp (x : Reg) (s : State) : Result :=
  withKeyIndex x s (complete (skipIf (!s.keyDown (s.reg x))) s)

/-- `LD Vx, DT` (R243). -/
def execLdVxDT (x : Reg) (s : State) : Result :=
  complete .advance (s.setReg x s.dt)

/-- `LD Vx, K` (R244): latches the wait and completes; the coming ticks do the waiting. -/
def execLdVxK (x : Reg) (s : State) : Result :=
  complete .advance { s with wait := true, waitReg := x }

/-- `LD DT, Vx` (R245). -/
def execLdDTVx (x : Reg) (s : State) : Result :=
  complete .advance { s with dt := s.reg x }

/-- `LD ST, Vx` (R246). -/
def execLdSTVx (x : Reg) (s : State) : Result :=
  complete .advance { s with st := s.reg x }

end Sys2Proof.Machine
end

