-- ==== Sys2Proof/Machine/Tick.lean ====
section
/-! DEFINITION. The tick, the one transition of the core (spec/40_execution_cycle.md R120), with its steps. -/

namespace Sys2Proof.Machine

/-- Steps 1 and 2 (R122): `KEYS` replaced by the input, `CHANGED` cleared; the port `rnd` is sampled (R40; log 2). -/
def State.latchInputs (s : State) (inp : TickInput) : State :=
  { s with keys := inp.keys, rnd := inp.rnd, changed := false }

/-- Step 3 with `WAIT = 1` (R123): the least pressed key's index goes to `V[WAIT_REG]` and the wait ends; with no key
pressed nothing happens. -/
def State.resolveWait (s : State) : State :=
  match s.leastKey with
  | some k => { s with v := s.v.set s.waitReg.val (BitVec.ofNat 8 k.val) s.waitReg.isLt, wait := false }
  | none => s

/-- A timer's countdown: by one if it is not zero (R124). -/
def countDown (t : Byte) : Byte := if t = 0 then 0 else t - 1

/-- Step 4a (R124). -/
def State.countTimers (s : State) : State :=
  { s with dt := countDown s.dt, st := countDown s.st }

/-- Steps 4b to 4e (R125 to R127, R131): fetch, decode, execute; the directive is applied in `complete`. -/
def State.fetchAndExec (s : State) : Result :=
  match s.fetchWord with
  | some w => exec (decodeWord w) s
  | none => raise .fetchFault s.pc s

/-- The tick with inputs `inp` (R120). A halted core changes nothing (R121). -/
def tick (inp : TickInput) (s : State) : Result :=
  if s.halted then .next s
  else if s.wait then .next (s.latchInputs inp).resolveWait
  else ((s.latchInputs inp).countTimers).fetchAndExec

end Sys2Proof.Machine
end

