-- ==== Sys2Proof/Machine/Step.lean ====
section
/-! DEFINITION. The step: one tick event with the inputs the host presents (spec/40_execution_cycle.md R120, spec/70_reset_and_hazards.md R305). -/

namespace Sys2Proof.Machine

/-- One tick: its inputs are taken from the host's side of the state and given to the core. -/
def step (s : State) : Host.Outcome State Fault Refusal :=
  tick s.nextInput s.takeInput

/-- `s` with the table's word where the next step fetches it (log 11): a core that is halted or waiting fetches nothing and
one whose `PC` is above 0xFFE cannot, so these are lifted first; otherwise only the two bytes at `PC` change. -/
def State.withFetchWord (s : State) (nbits w : Nat) : State :=
  let pc := if s.pc.toNat + 1 < Config.memSize then s.pc else Config.progBase
  { s with
    fault := none
    wait := false
    pc := pc
    mem := s.mem.writeBytes pc.toNat [(tableWord nbits w).hiByte, (tableWord nbits w).loByte] }

end Sys2Proof.Machine
end

