-- ==== Sys2Proof/Machine/HostMoves.lean ====
section
/-! DEFINITION. What the host can do to the core and see of it (spec/70_reset_and_hazards.md R305, spec/10_state.md R40 to R42). -/

namespace Sys2Proof.Machine

/-- The host's moves, exactly those of R305's first table. -/
inductive HostMove where
  /-- `rst`. -/
  | rst
  /-- A loader write, `ld_addr[11:0]` and `ld_data[7:0]`. -/
  | load (addr : BitVec 12) (data : Byte)
  /-- `tick(keys, rnd)`. -/
  | tick (inp : TickInput)
deriving DecidableEq, Repr

/-- A loader write (R41): `MEM[ld_addr] <- ld_data` and nothing else. -/
def State.loaderWrite (s : State) (addr : BitVec 12) (data : Byte) : State :=
  { s with mem := s.mem.write addr.toNat data }

/-- When the host may use the loader port (R41, R305): after `rst`, before the first tick, from 0x200 up. -/
def State.mayLoad (s : State) (addr : BitVec 12) : Bool :=
  s.loading && decide (Config.progBase.toNat ≤ addr.toNat)

/-- One move of the host (R305). A loader write outside the host's duty has no meaning and is refused (log 12). -/
def hostMove (m : HostMove) (s : State) : Result :=
  match m with
  | .rst => .next s.hostReset
  | .load addr data => if s.mayLoad addr then .next (s.loaderWrite addr data) else .refused .loaderBreach
  | .tick inp => step { s with inputs := inp :: s.inputs }

/-- A sequence of moves, stopping at the first that has no meaning. -/
def hostMoves : List HostMove → State → Result
  | [], s => .next s
  | m :: ms, s =>
    match hostMove m s with
    | .next s' => hostMoves ms s'
    | .fault r => .fault r
    | .refused r => .refused r

/-- The output ports (R42), views of the state between events. -/
structure Outputs where
  fb        : Framebuffer
  changed   : Bool
  beep      : Bool
  fault     : BitVec 3
  faultInfo : Word
deriving DecidableEq, Repr

/-- `fb`, `changed`, `beep = (ST != 0)`, `fault`, `fault_info` (R42). -/
def State.outputs (s : State) : Outputs where
  fb := s.fb
  changed := s.changed
  beep := s.st != 0
  fault := (s.fault.map FaultKind.code).getD 0
  faultInfo := s.faultInfo

end Sys2Proof.Machine
end

