-- ==== Sys2Proof/Safety.lean ====
section
/-! DEFINITION. What claims are stated in: a safe state, the three kinds of tick, coming to rest, and the invariant of reachable states. -/

namespace Sys2Proof.Machine

/-- No fault is latched: reaching any other state is "gone wrong" (spec/60_exceptions.md R266). -/
def State.safe (s : State) : Prop := s.fault = none

/-- The next tick executes an instruction (spec/40_execution_cycle.md R133): neither halted nor waiting, and `w` is fetched. -/
def State.executing (s : State) (w : Word) : Prop :=
  s.fault = none ∧ s.wait = false ∧ s.fetchWord = some w

/-- The state the instruction of a tick sees (R127): inputs latched, `CHANGED` cleared, timers counted. -/
def State.atExec (s : State) : State :=
  (s.takeInput.latchInputs s.nextInput).countTimers

/-- `k` ticks, one after the other. -/
def runTicks (k : Nat) (s : State) : Result := Sys2Proof.core.run k s

/-- A core at rest at `a` (R134): `PC = a`, the word there is `JP a`, not waiting, not faulted. -/
def State.atRest (s : State) (a : BitVec 12) : Prop :=
  s.pc = addrOperand a ∧ s.fetchWord = some (encodeWord (.jp a)) ∧ s.wait = false ∧ s.fault = none

/-- What holds in every state reachable from reset by loader writes and ticks (spec/10_state.md R45, spec/40_execution_cycle.md
R121): `PC <= 0x10FE`, every stack entry at most 0x1000, never waiting and halted at once, never halted with `CHANGED` set;
and memory is in its canonical form. (`SP <= 16` is in the type.) -/
structure State.Inv (s : State) : Prop where
  pc_le : s.pc.toNat ≤ 0x10FE
  stack_le : ∀ k : Fin 16, s.stack[k].toNat ≤ 0x1000
  not_waiting_halted : s.fault ≠ none → s.wait = false
  not_changed_halted : s.fault ≠ none → s.changed = false
  mem_wf : s.mem.wf

end Sys2Proof.Machine
end

