-- ==== Sys2Proof/Certificates/Slice0/Obligations.lean ====
section
/-! DEFINITION. The statements for the provers. Each docstring names what of spec/ it says; "decision D<n>" is the spec's own
decision in spec/92_eei_decisions.md. In every statement about an instruction's effect the equation `t = { s with … }` is the frame:
every field of the state that it does not name is unchanged. -/

open Sys2Proof Sys2Proof.Machine

/-! ## Words the statements are written in -/

/-- Every byte of memory reads as before. -/
def Sys2Proof.Machine.sameMemory (s t : State) : Prop := ∀ a : Nat, t.mem.read a = s.mem.read a

/-- Every byte of memory outside the `n` bytes at `a` reads as before. -/
def Sys2Proof.Machine.sameMemoryOutside (a n : Nat) (s t : State) : Prop :=
  ∀ c : Nat, c < a ∨ a + n ≤ c → t.mem.read c = s.mem.read c

/-- Every register but those of a list is unchanged. -/
def Sys2Proof.Machine.otherRegs (xs : List Reg) (s t : State) : Prop := ∀ r : Reg, r ∉ xs → t.reg r = s.reg r

/-- A register-only instruction's frame: only general registers and `PC` change, `PC` advances by 2, no byte of memory changes. -/
def Sys2Proof.Machine.onlyRegs (s t : State) : Prop :=
  t = { s with v := t.v, pc := s.pc + 2 } ∧ sameMemory s t

/-- R261's row `MemFault` for an access of `k` bytes at `I`. -/
def Sys2Proof.Machine.memFaultOf (k : Nat) (s : State) : Option (FaultKind × Word) :=
  if k ≠ 0 ∧ s.i.toNat + k - 1 > 0xFFF then some (.memFault, if s.i.toNat > 0xFFF then s.i else 0x1000) else none

/-- R261's row `KeyIndexFault`. -/
def Sys2Proof.Machine.keyFaultOf (x : Reg) (s : State) : Option (FaultKind × Word) :=
  if (s.reg x).toNat > 15 then some (.keyIndexFault, (s.reg x).setWidth 16) else none

/-- The table of R261: the fault an instruction raises in a state, with what it records; no other instruction can fault. -/
def Sys2Proof.Machine.faultOf (i : Instr) (s : State) : Option (FaultKind × Word) :=
  match i with
  | .call _ => if s.sp = 16 then some (.stackOverflow, s.pc) else none
  | .ret => if s.sp = 0 then some (.stackUnderflow, s.pc) else none
  | .drw _ _ n => memFaultOf n.val s
  | .ldB _ => memFaultOf 3 s
  | .store x => memFaultOf (x.val + 1) s
  | .load x => memFaultOf (x.val + 1) s
  | .skp x => keyFaultOf x s
  | .sknp x => keyFaultOf x s
  | _ => none

/-- R131: the program counter after an instruction that raises no fault. `RET`'s entry is the one below `SP`. -/
def Sys2Proof.Machine.pcAfter (i : Instr) (s : State) : Word :=
  match i with
  | .ret => (s.stack[s.sp.val - 1]?).getD 0
  | .jp nnn => nnn.setWidth 16
  | .call nnn => nnn.setWidth 16
  | .jpV0 nnn => nnn.setWidth 16 + (s.reg 0).setWidth 16
  | .seImm x kk => if s.reg x = kk then s.pc + 4 else s.pc + 2
  | .sneImm x kk => if s.reg x ≠ kk then s.pc + 4 else s.pc + 2
  | .seReg x y => if s.reg x = s.reg y then s.pc + 4 else s.pc + 2
  | .sneReg x y => if s.reg x ≠ s.reg y then s.pc + 4 else s.pc + 2
  | .skp x => if s.keys.getLsbD (s.reg x).toNat = true then s.pc + 4 else s.pc + 2
  | .sknp x => if s.keys.getLsbD (s.reg x).toNat = false then s.pc + 4 else s.pc + 2
  | _ => s.pc + 2

/-- A sprite of `n` bytes at `I` drawn at (`vx`, `vy`) has a 1 bit on the pixel (`row`, `col`) (R222, R223). -/
def Sys2Proof.Machine.spriteHas (vx vy : Byte) (n : Nat) (s : State) (row : Fin 32) (col : Fin 64) : Prop :=
  ∃ r c : Nat, r < n ∧ c < 8 ∧ row.val = (vy.toNat + r) % 32 ∧ col.val = (vx.toNat + c) % 64 ∧
    (s.mem.read (s.i.toNat + r)).getLsbD (7 - c) = true

/-- The instructions that write `VF` as a side effect (R22). -/
def Sys2Proof.Machine.writesFlag : Instr → Bool
  | .addReg _ _ | .subReg _ _ | .subnReg _ _ | .shr _ _ | .shl _ _ | .drw _ _ _ | .addI _ => true
  | _ => false

/-- The instructions whose destination field is 0xF (R22, R23); `LD VF, [I]` loads up to it. -/
def Sys2Proof.Machine.destIsVF : Instr → Bool
  | .ldImm x _ | .addImm x _ | .rnd x _ | .ldVxDT x | .load x => x == VF
  | .ldReg x _ | .orReg x _ | .andReg x _ | .xorReg x _ | .addReg x _ | .subReg x _ | .subnReg x _ | .shr x _ | .shl x _ =>
    x == VF
  | _ => false

/-- The general registers an instruction may write (R23, the column "writes"); the wait's own write is a tick's, not an instruction's. -/
def Sys2Proof.Machine.regWrites : Instr → List Reg
  | .ldImm x _ | .addImm x _ | .ldReg x _ | .orReg x _ | .andReg x _ | .xorReg x _ | .rnd x _ | .ldVxDT x => [x]
  | .addReg x _ | .subReg x _ | .subnReg x _ | .shr x _ | .shl x _ => [VF, x]
  | .drw _ _ _ | .addI _ => [VF]
  | .load x => (List.finRange 16).filter (fun r => r.val ≤ x.val)
  | .cls | .ret | .jp _ | .call _ | .ldI _ | .seImm _ _ | .sneImm _ _ | .seReg _ _ | .sneReg _ _ | .jpV0 _ => []
  | .skp _ | .sknp _ | .ldVxK _ | .ldDTVx _ | .ldSTVx _ | .ldF _ | .ldB _ | .store _ | .unrec _ => []

/-! ## Encoding -/

/-- Words of spec/95_test_vectors.md 2.7, one per family, decode as that table says. A sanity statement. -/
def Obligations.SampleWordsDecode : Prop :=
  decodeWord 0x00E0 = .cls ∧ decodeWord 0x6A7F = .ldImm 0xA 0x7F ∧ decodeWord 0x8AB4 = .addReg 0xA 0xB ∧
  decodeWord 0xD125 = .drw 1 2 5 ∧ decodeWord 0xF31E = .addI 3 ∧ decodeWord 0xE49E = .skp 4 ∧
  decodeWord 0x2FFE = .call 0xFFE ∧ decodeWord 0x5AB1 = .unrec 0x5AB1

/-- Decoding an encoded well-formed instruction gives it back, whatever bytes follow (R90, R94; decision D11). -/
def Obligations.EncodeThenDecodeIsIdentity : Prop :=
  ∀ (i : Instr) (rest : List Byte), i.wellFormed = true → decode (encode i ++ rest) = .ok (i, rest)

/-- Decoding is total and loses no bit: every word decodes to a well-formed instruction whose word it is (R102). -/
def Obligations.DecodeThenEncodeIsIdentity : Prop :=
  ∀ w : Word, (decodeWord w).wellFormed = true ∧ encodeWord (decodeWord w) = w

/-- The 34 rows of R94 are disjoint, and a word decodes to an unrecognized one exactly when it selects none (R96, R102). -/
def Obligations.TableRowsDisjointAndExhaustive : Prop :=
  ∀ w : Word,
    (∀ p ∈ patterns, ∀ q ∈ patterns, p.selects w = true → q.selects w = true → p = q) ∧
    ((∀ p ∈ patterns, p.selects w = false) ↔ decodeWord w = .unrec w)

/-- The unrecognized words are exactly the six sets of R101. -/
def Obligations.UnrecognizedWordsByFamily : Prop :=
  ∀ w : Word, decodeWord w = .unrec w ↔
    (opField w = 0x0 ∧ w ≠ 0x00E0 ∧ w ≠ 0x00EE) ∨
    (opField w = 0x5 ∧ nField w ≠ 0) ∨
    (opField w = 0x8 ∧ nField w ∈ ([8, 9, 0xA, 0xB, 0xC, 0xD, 0xF] : List (Fin 16))) ∨
    (opField w = 0x9 ∧ nField w ≠ 0) ∨
    (opField w = 0xE ∧ kkField w ∉ ([0x9E, 0xA1] : List Byte)) ∨
    (opField w = 0xF ∧ kkField w ∉ ([0x07, 0x0A, 0x15, 0x18, 0x1E, 0x29, 0x33, 0x55, 0x65] : List Byte))

/-! ## The tick -/

/-- A step runs the decoded instruction: neither halted nor waiting, with the two bytes at `PC` in memory and decoding to `i`, it is
`exec i` of the state with `KEYS` replaced, `CHANGED` cleared and the timers counted (R120, R127). The model's own fields move
with the tick: `rnd` is the sampled port, the presented input leaves the list, loading is over (log 1, 2, 12). The input
presented is the first of the list where there is one. -/
def Obligations.StepRunsDecodedInstruction : Prop :=
  ∀ (s : State) (i : Instr), s.fault = none → s.wait = false → s.pc.toNat ≤ 0xFFE →
    decode [s.mem.read s.pc.toNat, s.mem.read (s.pc.toNat + 1)] = .ok (i, []) →
    step s = exec i { s with
      keys := s.nextInput.keys, rnd := s.nextInput.rnd, changed := false,
      dt := if s.dt = 0 then 0 else s.dt - 1, st := if s.st = 0 then 0 else s.st - 1,
      inputs := s.inputs.tail, draws := s.draws + 1, loading := false } ∧
    ∀ inp rest, s.inputs = inp :: rest → s.nextInput = inp

/-- Fetch is big-endian and sees a store at once: after bytes `b0` at `a` and `b1` at `a + 1` are written, a tick at `a` executes the
word `b0 ++ b1`, even or odd `a` (R63, R64, R76; decision D21). -/
def Obligations.StoredBytesAreFetchedBigEndian : Prop :=
  ∀ (s : State) (a : Word) (b0 b1 : Byte), a.toNat ≤ 0xFFE → s.fault = none → s.wait = false → s.pc = a →
    step { s with mem := (s.mem.write a.toNat b0).write (a.toNat + 1) b1 } =
      exec (decodeWord (b0 ++ b1)) (State.atExec { s with mem := (s.mem.write a.toNat b0).write (a.toNat + 1) b1 })

/-- A fetch at `PC > 0xFFE` raises `FetchFault(PC)`; the tick's steps 1, 2 and 4a stand (R125, R129, R264; decisions D4, D17). -/
def Obligations.FetchBeyondMemoryFaults : Prop :=
  ∀ s : State, s.fault = none → s.wait = false → s.pc.toNat > 0xFFE →
    step s = .next { s with
      keys := s.nextInput.keys, rnd := s.nextInput.rnd, changed := false,
      dt := if s.dt = 0 then 0 else s.dt - 1, st := if s.st = 0 then 0 else s.st - 1,
      inputs := s.inputs.tail, draws := s.draws + 1, loading := false,
      fault := some .fetchFault, faultInfo := s.pc }

/-- A halted core stays as it is for ever: any number of ticks changes only the model's own record of the host's inputs
(R121, R266, R269; decision D17; log 1, 12). -/
def Obligations.HaltedCoreNeverChanges : Prop :=
  ∀ (k : Nat) (s : State), s.fault ≠ none → ∃ t, runTicks k s = .next t ∧
    t = { s with inputs := s.inputs.drop k, draws := s.draws + k, loading := t.loading } ∧ t.outputs = s.outputs

/-- A waiting core that sees no key for `k` ticks stays blocked: registers, timers, stack, memory, framebuffer and `PC` keep their
values (R123, R278; decision D16). -/
def Obligations.WaitingWithoutKeyHoldsEverything : Prop :=
  ∀ (k : Nat) (s : State), s.fault = none → s.wait = true → k ≤ s.inputs.length →
    (∀ inp ∈ s.inputs.take k, inp.keys = 0) →
    ∃ t, runTicks k s = .next t ∧
      t = { s with keys := t.keys, changed := t.changed, rnd := t.rnd, inputs := s.inputs.drop k, draws := t.draws,
                   loading := t.loading } ∧
      (k ≠ 0 → t.keys = 0 ∧ t.changed = false)

/-- A waiting tick that sees keys ends the wait: the least pressed key's index goes to `V[WAIT_REG]`, and no instruction executes, no
timer counts, `PC` stays (R123; decision D16). -/
def Obligations.WaitEndsWithLeastKey : Prop :=
  ∀ (s : State) (k : Fin 16), s.fault = none → s.wait = true → s.nextInput.keys.getLsbD k.val = true →
    (∀ j : Fin 16, j < k → s.nextInput.keys.getLsbD j.val = false) →
    ∃ t, step s = .next t ∧ (t.reg s.waitReg).toNat = k.val ∧ otherRegs [s.waitReg] s t ∧
      t = { s with v := t.v, wait := false, keys := s.nextInput.keys, changed := false, rnd := s.nextInput.rnd,
                   inputs := s.inputs.tail, draws := s.draws + 1, loading := false } ∧
      sameMemory s t

/-- R122: every tick of a core that is not halted replaces `KEYS` with the input and clears `CHANGED` before anything else, also a
tick blocked on input and one whose fetch faults; what an executing tick executes sees both. -/
def Obligations.EveryTickLatchesKeysAndClearsChanged : Prop :=
  ∀ s : State, s.fault = none →
    (∃ t, step s = .next t ∧ t.keys = s.nextInput.keys) ∧
    (s.wait = true ∨ s.fetchWord = none → ∃ t, step s = .next t ∧ t.changed = false) ∧
    (s.wait = false → ∀ w, s.fetchWord = some w →
      ∃ u : State, u.keys = s.nextInput.keys ∧ u.changed = false ∧ step s = exec (decodeWord w) u)

/-- R124: the timers count down by one per executing tick, never below 0, before the instruction of the tick; a timer the tick's
instruction writes holds the written value; they stand still in a tick that is blocked or halted. -/
def Obligations.TimersCountExecutingTicks : Prop :=
  (∀ s : State, s.fault = none → s.wait = false → ∃ t, step s = .next t ∧
    ((∀ w x, s.fetchWord = some w → decodeWord w ≠ .ldDTVx x) → t.dt.toNat = s.dt.toNat - 1) ∧
    ((∀ w x, s.fetchWord = some w → decodeWord w ≠ .ldSTVx x) → t.st.toNat = s.st.toNat - 1) ∧
    (∀ w x, s.fetchWord = some w → decodeWord w = .ldDTVx x → t.dt = s.reg x) ∧
    (∀ w x, s.fetchWord = some w → decodeWord w = .ldSTVx x → t.st = s.reg x) ∧
    (∀ w x, s.fetchWord = some w → decodeWord w = .ldVxDT x → (t.reg x).toNat = s.dt.toNat - 1)) ∧
  (∀ s : State, s.fault ≠ none ∨ s.wait = true → ∃ t, step s = .next t ∧ t.dt = s.dt ∧ t.st = s.st)

/-- R33: after a tick of a core that is not halted, `CHANGED` is 1 exactly when the tick executed a `CLS` or a `DRW` (one that raised
no fault), and the port `changed` shows it; a halted core's stays. -/
def Obligations.ChangedExactlyAfterClsOrDrw : Prop :=
  (∀ s : State, s.fault = none → ∃ t, step s = .next t ∧ t.outputs.changed = t.changed ∧
    (t.changed = true ↔ s.wait = false ∧ ∃ w, s.fetchWord = some w ∧
      (decodeWord w = .cls ∨ ∃ x y n, decodeWord w = .drw x y n ∧ (n.val = 0 ∨ s.i.toNat + n.val - 1 ≤ 0xFFF)))) ∧
  (∀ s : State, s.fault ≠ none → ∃ t, step s = .next t ∧ t.changed = s.changed)

/-- Every step and every instruction answers a next state: no instruction is refused and no fault of the spec stops the machine
(R127, R132, R311). -/
def Obligations.EveryStepAnswersNext : Prop :=
  (∀ (i : Instr) (s : State), ∃ t, exec i s = .next t) ∧ ∀ s : State, ∃ t, step s = .next t

/-- The fault table of R261, whole: an instruction raises exactly the fault the table gives, doing nothing but latch it (R12, R266),
and where the table gives none it leaves the latch alone; the codes are the table's (decisions D1 to D3, D5). -/
def Obligations.InstructionFaultsExactlyByTable : Prop :=
  (∀ (i : Instr) (s : State) (k : FaultKind) (info : Word), faultOf i s = some (k, info) →
    exec i s = .next { s with fault := some k, faultInfo := info }) ∧
  (∀ (i : Instr) (s : State), faultOf i s = none →
    ∃ t, exec i s = .next t ∧ t.fault = s.fault ∧ t.faultInfo = s.faultInfo) ∧
  (FaultKind.code .stackOverflow = 1 ∧ FaultKind.code .stackUnderflow = 2 ∧ FaultKind.code .memFault = 3 ∧
    FaultKind.code .fetchFault = 4 ∧ FaultKind.code .keyIndexFault = 5)

/-- R131: the program counter after every instruction that raises no fault is the one its directive gives. -/
def Obligations.EveryInstructionAppliesItsDirective : Prop :=
  ∀ (i : Instr) (s : State), faultOf i s = none → ∃ t, exec i s = .next t ∧ t.pc = pcAfter i s

/-- Each piece of state has only the writers the spec names (R23 to R36, R44, R128): whatever the instruction, what it does not name is
unchanged, in every general register and every byte of memory too. `PC` is written by every instruction that does not fault, and the
fault latch only where the fault table gives a fault (decisions D1 to D3, D5). -/
def Obligations.EachStateHasOnlyItsWriters : Prop :=
  ∀ (i : Instr) (s t : State), exec i s = .next t →
    otherRegs (regWrites i) s t ∧
    (regWrites i = [] → t.v = s.v) ∧
    (faultOf i s = none → t.fault = s.fault ∧ t.faultInfo = s.faultInfo) ∧
    (faultOf i s ≠ none → t.pc = s.pc) ∧
    (match i with | .call _ | .ret => True | _ => t.sp = s.sp) ∧
    (match i with | .call _ => True | _ => t.stack = s.stack) ∧
    (match i with | .ldI _ | .addI _ | .ldF _ => True | _ => t.i = s.i) ∧
    (match i with | .ldDTVx _ => True | _ => t.dt = s.dt) ∧
    (match i with | .ldSTVx _ => True | _ => t.st = s.st) ∧
    (match i with | .ldB _ | .store _ => True | _ => sameMemory s t) ∧
    (match i with | .cls | .drw _ _ _ => True | _ => t.fb = s.fb ∧ t.changed = s.changed) ∧
    (match i with | .ldVxK _ => True | _ => t.wait = s.wait ∧ t.waitReg = s.waitReg) ∧
    t.keys = s.keys ∧ t.rnd = s.rnd ∧ t.inputs = s.inputs ∧ t.draws = s.draws ∧ t.loading = s.loading

/-- The writers of `VF` (R22): an instruction that is none of the seven flag writers and has no destination field 0xF leaves `VF`;
each of the seven, where it raises no fault and its destination is not `VF`, leaves 0 or 1 there. -/
def Obligations.FlagRegisterHasOnlyItsWriters : Prop :=
  ∀ (i : Instr) (s t : State), exec i s = .next t →
    (writesFlag i = false → destIsVF i = false → t.reg VF = s.reg VF) ∧
    (writesFlag i = true → destIsVF i = false → faultOf i s = none → t.reg VF = 0 ∨ t.reg VF = 1)

/-- Only `RND` sees the port `rnd`, and only the two key skips see the keys of their own tick (R40, R44): two executing ticks that
differ in an input no such instruction reads end alike but for the latched input itself. -/
def Obligations.InputsReachOnlyTheirReaders : Prop :=
  ∀ (s : State) (a b : TickInput) (w : Word), s.fault = none → s.wait = false → s.fetchWord = some w →
    ((∀ x kk, decodeWord w ≠ .rnd x kk) → (∀ x, decodeWord w ≠ .skp x) → (∀ x, decodeWord w ≠ .sknp x) →
      ∃ t, step { s with inputs := [a] } = .next t ∧
        step { s with inputs := [b] } = .next { t with keys := b.keys, rnd := b.rnd }) ∧
    ((∀ x kk, decodeWord w ≠ .rnd x kk) → a.keys = b.keys →
      ∃ t, step { s with inputs := [a] } = .next t ∧ step { s with inputs := [b] } = .next { t with rnd := b.rnd }) ∧
    ((∀ x, decodeWord w ≠ .skp x) → (∀ x, decodeWord w ≠ .sknp x) → a.rnd = b.rnd →
      ∃ t, step { s with inputs := [a] } = .next t ∧ step { s with inputs := [b] } = .next { t with keys := b.keys })

/-! ## Control flow (spec/41_control_flow.md) -/

/-- R152 `JP nnn`: every 12-bit target is accepted; from 0xFFF alone nothing can be fetched, and the next tick raises
`FetchFault(0x0FFF)`. -/
def Obligations.JumpSetsTheCounter : Prop :=
  ∀ (nnn : BitVec 12) (s : State), decodeWord (encodeNNN 0x1 nnn) = .jp nnn ∧
    ∃ t, exec (.jp nnn) s = .next t ∧ t.pc.toNat = nnn.toNat ∧ t = { s with pc := t.pc } ∧ sameMemory s t ∧
      (t.fetchWord = none ↔ nnn = 0xFFF) ∧
      (nnn = 0xFFF → s.fault = none → s.wait = false →
        ∃ u, step t = .next u ∧ u.fault = some .fetchFault ∧ u.faultInfo = 0xFFF)

/-- R158 `JP V0, nnn`: the sum is not reduced to 12 bits, the offset is always `V[0]` (decision D7). -/
def Obligations.JumpV0AddsRegisterZero : Prop :=
  ∀ (nnn : BitVec 12) (s : State), decodeWord (encodeNNN 0xB nnn) = .jpV0 nnn ∧
    ∃ t, exec (.jpV0 nnn) s = .next t ∧ t.pc.toNat = nnn.toNat + (s.reg 0).toNat ∧ t = { s with pc := t.pc } ∧
      sameMemory s t

/-- R153 `CALL nnn` with room on the stack: the address after the `CALL` is written at the old `SP` (decision D2). -/
def Obligations.CallPushesReturnAddress : Prop :=
  ∀ (nnn : BitVec 12) (s : State) (h : s.sp.val < 16), decodeWord (encodeNNN 0x2 nnn) = .call nnn ∧
    ∃ t, exec (.call nnn) s = .next t ∧ t.stack[s.sp.val] = s.pc + 2 ∧ t.sp.val = s.sp.val + 1 ∧
      t.pc.toNat = nnn.toNat ∧ (∀ k : Fin 16, k.val ≠ s.sp.val → t.stack[k] = s.stack[k]) ∧
      t = { s with stack := t.stack, sp := t.sp, pc := t.pc } ∧ sameMemory s t

/-- R151 `RET` with a return address stacked: the popped entry is the new `PC` as it stands and stays in `STACK` (decision D2). -/
def Obligations.ReturnPopsReturnAddress : Prop :=
  ∀ (s : State) (h : 0 < s.sp.val), decodeWord 0x00EE = .ret ∧
    ∃ t, exec .ret s = .next t ∧ t.pc = s.stack[s.sp.val - 1] ∧ t.sp.val = s.sp.val - 1 ∧
      t = { s with sp := t.sp, pc := t.pc } ∧ sameMemory s t

/-- "Call followed immediately by return restores the program counter to the instruction directly after the call" (R151, S5);
only the `STACK` entry that the `CALL` writes may differ. -/
def Obligations.CallThenReturnComesBack : Prop :=
  ∀ (nnn : BitVec 12) (s : State), s.sp.val < 16 →
    ∃ t u, exec (.call nnn) s = .next t ∧ exec .ret t = .next u ∧ u.pc = s.pc + 2 ∧ u.sp = s.sp ∧
      (∀ k : Fin 16, k.val ≠ s.sp.val → u.stack[k] = s.stack[k]) ∧
      u = { s with stack := u.stack, pc := u.pc } ∧ sameMemory s u

/-- R154 to R157, the four register skips: `PC + 4` when the condition holds, else `PC + 2`; nothing else changes. A last
nibble other than 0 makes the register forms' words unrecognized. -/
def Obligations.RegisterSkipsTestTheirCondition : Prop :=
  ∀ (x y : Reg) (kk : Byte) (s : State),
    (decodeWord (encodeXKK 0x3 x kk) = .seImm x kk ∧ ∃ t, exec (.seImm x kk) s = .next t ∧
      t.pc = (if s.reg x = kk then s.pc + 4 else s.pc + 2) ∧ t = { s with pc := t.pc } ∧ sameMemory s t) ∧
    (decodeWord (encodeXKK 0x4 x kk) = .sneImm x kk ∧ ∃ t, exec (.sneImm x kk) s = .next t ∧
      t.pc = (if s.reg x = kk then s.pc + 2 else s.pc + 4) ∧ t = { s with pc := t.pc } ∧ sameMemory s t) ∧
    (decodeWord (encodeXYN 0x5 x y 0x0) = .seReg x y ∧ ∃ t, exec (.seReg x y) s = .next t ∧
      t.pc = (if s.reg x = s.reg y then s.pc + 4 else s.pc + 2) ∧ t = { s with pc := t.pc } ∧ sameMemory s t) ∧
    (decodeWord (encodeXYN 0x9 x y 0x0) = .sneReg x y ∧ ∃ t, exec (.sneReg x y) s = .next t ∧
      t.pc = (if s.reg x = s.reg y then s.pc + 2 else s.pc + 4) ∧ t = { s with pc := t.pc } ∧ sameMemory s t) ∧
    (∀ n : BitVec 4, n ≠ 0 → decodeWord (encodeXYN 0x5 x y n) = .unrec (encodeXYN 0x5 x y n) ∧
      decodeWord (encodeXYN 0x9 x y n) = .unrec (encodeXYN 0x9 x y n))

/-- R100: a word that selects none of the 34 rows is a no-op that advances the counter, and its tick still replaces `KEYS`, clears
`CHANGED` and counts the timers (that the model's own fields move with the tick is the model's choice, log 1, 2, 12). -/
def Obligations.UnrecognizedWordOnlyAdvances : Prop :=
  ∀ (w : Word) (s : State), (∀ p ∈ patterns, p.selects w = false) →
    decodeWord w = .unrec w ∧ exec (.unrec w) s = .next { s with pc := s.pc + 2 } ∧
    (s.fault = none → s.wait = false → s.fetchWord = some w →
      ∃ t, step s = .next t ∧ t.dt.toNat = s.dt.toNat - 1 ∧ t.st.toNat = s.st.toNat - 1 ∧
        t = { s with pc := s.pc + 2, keys := s.nextInput.keys, changed := false, dt := t.dt, st := t.st,
                     rnd := s.nextInput.rnd, inputs := s.inputs.tail, draws := s.draws + 1, loading := false } ∧
        sameMemory s t)

/-! ## Registers and ALU (spec/42_alu.md) -/

/-- R171 `LD Vx, kk` and R172 `ADD Vx, kk`, `x = 0xF` like any register; `VF` is not written otherwise. -/
def Obligations.ImmediateFormsWriteTheirRegister : Prop :=
  ∀ (x : Reg) (kk : Byte) (s : State),
    (decodeWord (encodeXKK 0x6 x kk) = .ldImm x kk ∧ ∃ t, exec (.ldImm x kk) s = .next t ∧
      t.reg x = kk ∧ otherRegs [x] s t ∧ onlyRegs s t) ∧
    (decodeWord (encodeXKK 0x7 x kk) = .addImm x kk ∧ ∃ t, exec (.addImm x kk) s = .next t ∧
      (t.reg x).toNat = ((s.reg x).toNat + kk.toNat) % 256 ∧ otherRegs [x] s t ∧ onlyRegs s t)

/-- R173 to R176: copy, OR, AND, XOR act on all 8 bits and write no flag. -/
def Obligations.CopyAndLogicWriteNoFlag : Prop :=
  ∀ (x y : Reg) (s : State),
    (decodeWord (encodeXYN 0x8 x y 0x0) = .ldReg x y ∧ ∃ t, exec (.ldReg x y) s = .next t ∧
      t.reg x = s.reg y ∧ otherRegs [x] s t ∧ onlyRegs s t) ∧
    (decodeWord (encodeXYN 0x8 x y 0x1) = .orReg x y ∧ ∃ t, exec (.orReg x y) s = .next t ∧
      (∀ k < 8, (t.reg x).getLsbD k = ((s.reg x).getLsbD k || (s.reg y).getLsbD k)) ∧ otherRegs [x] s t ∧ onlyRegs s t) ∧
    (decodeWord (encodeXYN 0x8 x y 0x2) = .andReg x y ∧ ∃ t, exec (.andReg x y) s = .next t ∧
      (∀ k < 8, (t.reg x).getLsbD k = ((s.reg x).getLsbD k && (s.reg y).getLsbD k)) ∧ otherRegs [x] s t ∧ onlyRegs s t) ∧
    (decodeWord (encodeXYN 0x8 x y 0x3) = .xorReg x y ∧ ∃ t, exec (.xorReg x y) s = .next t ∧
      (∀ k < 8, (t.reg x).getLsbD k = ((s.reg x).getLsbD k ^^ (s.reg y).getLsbD k)) ∧ otherRegs [x] s t ∧ onlyRegs s t)

/-- R177 `ADD Vx, Vy`, every choice of `x` and `y`: with `x = 0xF` the sum stays in `VF`, with `y = 0xF` the old `VF` is added.
These two clauses rest on the order of operand reads and writes, the spec's own choice (R170, decision D9, conflict C9; log 7). -/
def Obligations.AddRegistersSetsCarry : Prop :=
  ∀ (x y : Reg) (s : State), decodeWord (encodeXYN 0x8 x y 0x4) = .addReg x y ∧
    ∃ t, exec (.addReg x y) s = .next t ∧
      (t.reg x).toNat = ((s.reg x).toNat + (s.reg y).toNat) % 256 ∧
      (x ≠ VF → t.reg VF = if (s.reg x).toNat + (s.reg y).toNat > 255 then 1 else 0) ∧
      otherRegs [x, VF] s t ∧ onlyRegs s t

/-- R178 `SUB Vx, Vy` and R179 `SUBN Vx, Vy`, every choice of `x` and `y`: equal operands give flag 0; with `x = 0xF` the difference
stays in `VF`, with `y = 0xF` the old `VF` is the operand. These two clauses rest on the order of operand reads and writes, the spec's
own choice (R170, decision D9, conflict C9; log 7). -/
def Obligations.SubtractionsSetStrictlyGreater : Prop :=
  ∀ (x y : Reg) (s : State),
    (decodeWord (encodeXYN 0x8 x y 0x5) = .subReg x y ∧ ∃ t, exec (.subReg x y) s = .next t ∧
      ((t.reg x).toNat : Int) = ((s.reg x).toNat - (s.reg y).toNat : Int) % 256 ∧
      (x ≠ VF → t.reg VF = if (s.reg x).toNat > (s.reg y).toNat then 1 else 0) ∧
      otherRegs [x, VF] s t ∧ onlyRegs s t) ∧
    (decodeWord (encodeXYN 0x8 x y 0x7) = .subnReg x y ∧ ∃ t, exec (.subnReg x y) s = .next t ∧
      ((t.reg x).toNat : Int) = ((s.reg y).toNat - (s.reg x).toNat : Int) % 256 ∧
      (x ≠ VF → t.reg VF = if (s.reg y).toNat > (s.reg x).toNat then 1 else 0) ∧
      otherRegs [x, VF] s t ∧ onlyRegs s t)

/-- R180 `SHR` and R181 `SHL` for whichever register the open parameter `SHIFT_SRC` makes the source (decision D8): the bit shifted out
goes to `VF`, the destination is `V[x]`. With `x = 0xF` the result stays in `VF`, and a source `VF` is the old one (decision D9; log 7).
Nothing rests on the parameter's value; with `x = y` it does not matter. -/
def Obligations.ShiftsByOneFromTheirSource : Prop :=
  ∀ (x y : Reg) (s : State) (src : Byte), src = (if Config.shiftSrc = .x then s.reg x else s.reg y) →
    (decodeWord (encodeXYN 0x8 x y 0x6) = .shr x y ∧ ∃ t, exec (.shr x y) s = .next t ∧
      (t.reg x).toNat = src.toNat / 2 ∧ (x ≠ VF → (t.reg VF).toNat = src.toNat % 2) ∧
      otherRegs [x, VF] s t ∧ onlyRegs s t) ∧
    (decodeWord (encodeXYN 0x8 x y 0xE) = .shl x y ∧ ∃ t, exec (.shl x y) s = .next t ∧
      (t.reg x).toNat = src.toNat * 2 % 256 ∧ (x ≠ VF → (t.reg VF).toNat = src.toNat / 128) ∧
      otherRegs [x, VF] s t ∧ onlyRegs s t)

/-- R182 `RND Vx, kk`: the mask of the port `rnd` at this tick, whatever the host presents; bits outside the mask are cleared
(decision D13). -/
def Obligations.RandomByteIsMasked : Prop :=
  ∀ (x : Reg) (kk : Byte) (s : State), decodeWord (encodeXKK 0xC x kk) = .rnd x kk ∧
    (∃ t, exec (.rnd x kk) s = .next t ∧
      (∀ k < 8, (t.reg x).getLsbD k = (s.rnd.getLsbD k && kk.getLsbD k)) ∧ otherRegs [x] s t ∧ onlyRegs s t) ∧
    (s.fault = none → s.wait = false → s.fetchWord = some (encodeXKK 0xC x kk) →
      ∃ t, step s = .next t ∧ t.reg x = s.nextInput.rnd &&& kk)

/-! ## Index register and memory (spec/43_index_and_memory.md) -/

/-- R201 `LD I, nnn`. -/
def Obligations.LoadIndexZeroExtends : Prop :=
  ∀ (nnn : BitVec 12) (s : State), decodeWord (encodeNNN 0xA nnn) = .ldI nnn ∧
    ∃ t, exec (.ldI nnn) s = .next t ∧ t.i.toNat = nnn.toNat ∧ t = { s with i := t.i, pc := s.pc + 2 } ∧ sameMemory s t

/-- R202 `ADD I, Vx`: modulo 2^16, `VF` from the wrapped result against 0x0F00; `x = 0xF` adds the old `VF` (decision D6; the
threshold is unaudited, U5). -/
def Obligations.AddIndexFlagsAboveThreshold : Prop :=
  ∀ (x : Reg) (s : State), decodeWord (encodeXKK 0xF x 0x1E) = .addI x ∧
    ∃ t, exec (.addI x) s = .next t ∧ t.i.toNat = (s.i.toNat + (s.reg x).toNat) % 65536 ∧
      t.reg VF = (if t.i.toNat > 0x0F00 then 1 else 0) ∧ otherRegs [VF] s t ∧
      t = { s with i := t.i, v := t.v, pc := s.pc + 2 } ∧ sameMemory s t

/-- R203 `LD F, Vx`: the whole register times 5, no base (decision D10, conflict C1). -/
def Obligations.FontIndexIsFiveTimesRegister : Prop :=
  ∀ (x : Reg) (s : State), decodeWord (encodeXKK 0xF x 0x29) = .ldF x ∧
    ∃ t, exec (.ldF x) s = .next t ∧ t.i.toNat = (s.reg x).toNat * 5 ∧ t = { s with i := t.i, pc := s.pc + 2 } ∧
      sameMemory s t

/-- R204 `LD B, Vx` in range: hundreds, tens and units at `I`, `I + 1`, `I + 2`, every other byte unchanged (decision D3). -/
def Obligations.BcdStoresThreeDigits : Prop :=
  ∀ (x : Reg) (s : State), s.i.toNat + 2 ≤ 0xFFF → decodeWord (encodeXKK 0xF x 0x33) = .ldB x ∧
    ∃ t, exec (.ldB x) s = .next t ∧
      (t.mem.read s.i.toNat).toNat = (s.reg x).toNat / 100 ∧
      (t.mem.read (s.i.toNat + 1)).toNat = (s.reg x).toNat / 10 % 10 ∧
      (t.mem.read (s.i.toNat + 2)).toNat = (s.reg x).toNat % 10 ∧
      (∀ a, a = s.dataAddr 0 → sameMemoryOutside a 3 s t) ∧ t = { s with mem := t.mem, pc := s.pc + 2 }

/-- R205 `LD [I], Vx` in range: `V[0]` to `V[x]` at `I` upward, every other byte unchanged, `I` kept (decision D3). -/
def Obligations.StoreRegistersToMemory : Prop :=
  ∀ (x : Reg) (s : State), s.i.toNat + x.val ≤ 0xFFF → decodeWord (encodeXKK 0xF x 0x55) = .store x ∧
    ∃ t, exec (.store x) s = .next t ∧
      (∀ r : Reg, r.val ≤ x.val → t.mem.read (s.dataAddr r.val) = s.reg r) ∧
      (∀ a, a = s.dataAddr 0 → sameMemoryOutside a (x.val + 1) s t) ∧ t = { s with mem := t.mem, pc := s.pc + 2 }

/-- R206 `LD Vx, [I]` in range: `V[0]` to `V[x]` from `I` upward, registers above `x` and `I` kept (decision D3). -/
def Obligations.LoadRegistersFromMemory : Prop :=
  ∀ (x : Reg) (s : State), s.i.toNat + x.val ≤ 0xFFF → decodeWord (encodeXKK 0xF x 0x65) = .load x ∧
    ∃ t, exec (.load x) s = .next t ∧
      (∀ r : Reg, r.val ≤ x.val → t.reg r = s.mem.read (s.i.toNat + r.val)) ∧
      (∀ r : Reg, x.val < r.val → t.reg r = s.reg r) ∧ onlyRegs s t

/-- Storing registers and loading them back gives the original values, whatever the registers held in between (R205, R206, S9). -/
def Obligations.StoreThenLoadRoundTrips : Prop :=
  ∀ (x : Reg) (s : State) (v' : Vector Byte 16), s.i.toNat + x.val ≤ 0xFFF →
    ∃ t u, exec (.store x) s = .next t ∧ exec (.load x) { t with v := v' } = .next u ∧
      ∀ r : Reg, u.reg r = if r.val ≤ x.val then s.reg r else v'[r]

/-! ## Display (spec/44_display.md) -/

/-- R221 `CLS`. -/
def Obligations.ClearScreenBlanksAndMarks : Prop :=
  ∀ s : State, decodeWord 0x00E0 = .cls ∧ ∃ t, exec .cls s = .next t ∧
    (∀ row col, t.fb.pixel row col = false) ∧ t.changed = true ∧
    t = { s with fb := t.fb, changed := t.changed, pc := s.pc + 2 } ∧ sameMemory s t

/-- R223 `DRW Vx, Vy, n` in range, every choice of `x`, `y` and `n`: exactly the pixels under a 1 bit of the wrapped sprite toggle, `VF`
is 1 exactly when some pixel went from set to unset, `CHANGED` is set (decisions D3, D22). -/
def Obligations.DrawXorsTheWrappedSprite : Prop :=
  ∀ (x y : Reg) (n : Fin 16) (s : State), n.val = 0 ∨ s.i.toNat + n.val - 1 ≤ 0xFFF →
    decodeWord (encodeXYN 0xD x y (BitVec.ofFin (w := 4) n)) = .drw x y n ∧
    ∃ t, exec (.drw x y n) s = .next t ∧
      (∀ row col, t.fb.pixel row col ≠ s.fb.pixel row col ↔ spriteHas (s.reg x) (s.reg y) n.val s row col) ∧
      (t.reg VF = 1 ∨ t.reg VF = 0) ∧
      (t.reg VF = 1 ↔ ∃ row col, s.fb.pixel row col = true ∧ t.fb.pixel row col = false) ∧
      otherRegs [VF] s t ∧ t.changed = true ∧
      t = { s with v := t.v, fb := t.fb, changed := t.changed, pc := s.pc + 2 } ∧ sameMemory s t

/-- "Drawing the same sprite twice at the same position restores the original framebuffer contents (XOR self-inverse) and reports
changed = true both times" (R223 (d), S4): the second draw may come from any registers that hold the position and any state that
has the first one's framebuffer, index and memory. -/
def Obligations.DrawTwiceRestoresTheFramebuffer : Prop :=
  ∀ (x y x' y' : Reg) (n : Fin 16) (s t u : State), n.val = 0 ∨ s.i.toNat + n.val - 1 ≤ 0xFFF →
    exec (.drw x y n) s = .next t →
    u.fb = t.fb → u.i = s.i → u.mem = s.mem → u.reg x' = s.reg x → u.reg y' = s.reg y →
    ∃ w, exec (.drw x' y' n) u = .next w ∧ w.fb = s.fb ∧ t.changed = true ∧ w.changed = true

/-! ## Keypad and timers (spec/45_keypad_and_timers.md) -/

/-- R241 `SKP Vx` and R242 `SKNP Vx` with a key index in the register: exactly one of them skips (an index above 15 faults, decision
D5, `InstructionFaultsExactlyByTable`). -/
def Obligations.KeySkipsTestTheKeyLevel : Prop :=
  ∀ (x : Reg) (s : State), (s.reg x).toNat ≤ 15 →
    (decodeWord (encodeXKK 0xE x 0x9E) = .skp x ∧ ∃ t, exec (.skp x) s = .next t ∧
      t.pc = (if s.keys.getLsbD (s.reg x).toNat = true then s.pc + 4 else s.pc + 2) ∧ t = { s with pc := t.pc } ∧
      sameMemory s t) ∧
    (decodeWord (encodeXKK 0xE x 0xA1) = .sknp x ∧ ∃ t, exec (.sknp x) s = .next t ∧
      t.pc = (if s.keys.getLsbD (s.reg x).toNat = true then s.pc + 2 else s.pc + 4) ∧ t = { s with pc := t.pc } ∧
      sameMemory s t)

/-- R243 `LD Vx, DT`: the timer as the instruction sees it; in a tick, that is after the tick's decrement. -/
def Obligations.ReadDelayTimer : Prop :=
  ∀ (x : Reg) (s : State), decodeWord (encodeXKK 0xF x 0x07) = .ldVxDT x ∧
    (∃ t, exec (.ldVxDT x) s = .next t ∧ t.reg x = s.dt ∧ otherRegs [x] s t ∧ onlyRegs s t) ∧
    (s.fault = none → s.wait = false → s.fetchWord = some (encodeXKK 0xF x 0x07) →
      ∃ t, step s = .next t ∧ (t.reg x).toNat = s.dt.toNat - 1 ∧ t.dt.toNat = s.dt.toNat - 1)

/-- R245 `LD DT, Vx` and R246 `LD ST, Vx`; the output `beep` follows `ST`. -/
def Obligations.TimerWritesTakeTheRegister : Prop :=
  ∀ (x : Reg) (s : State),
    (decodeWord (encodeXKK 0xF x 0x15) = .ldDTVx x ∧ ∃ t, exec (.ldDTVx x) s = .next t ∧
      t.dt = s.reg x ∧ t = { s with dt := t.dt, pc := s.pc + 2 } ∧ sameMemory s t) ∧
    (decodeWord (encodeXKK 0xF x 0x18) = .ldSTVx x ∧ ∃ t, exec (.ldSTVx x) s = .next t ∧
      t.st = s.reg x ∧ (t.outputs.beep = true ↔ s.reg x ≠ 0) ∧ t = { s with st := t.st, pc := s.pc + 2 } ∧
      sameMemory s t)

/-- R244 `LD Vx, K`: latches the wait and the register's index, looks at no key, writes no register, and advances (decision D16). -/
def Obligations.WaitForKeyLatches : Prop :=
  ∀ (x : Reg) (s : State), decodeWord (encodeXKK 0xF x 0x0A) = .ldVxK x ∧
    ∃ t, exec (.ldVxK x) s = .next t ∧ t.wait = true ∧ t.waitReg = x ∧ otherRegs [] s t ∧
      t = { s with wait := t.wait, waitReg := t.waitReg, pc := s.pc + 2 } ∧ sameMemory s t

/-- From `LD Vx, K` to the key: the tick that executes it, then any number of ticks without a key, then a tick with keys; the least
pressed key is in `V[x]`, `PC` is past the instruction, and the timers counted once, in the first of these ticks (R123, R244, R310;
decision D16). -/
def Obligations.KeyWaitDeliversTheKey : Prop :=
  ∀ (x : Reg) (s : State) (first last : TickInput) (held : List TickInput) (k : Fin 16), s.fault = none → s.wait = false →
    s.fetchWord = some (encodeXKK 0xF x 0x0A) → s.inputs = first :: held ++ [last] → (∀ inp ∈ held, inp.keys = 0) →
    last.keys.getLsbD k.val = true → (∀ j : Fin 16, j < k → last.keys.getLsbD j.val = false) →
    ∃ t, runTicks (held.length + 2) s = .next t ∧ (t.reg x).toNat = k.val ∧ otherRegs [x] s t ∧ t.wait = false ∧
      t.pc = s.pc + 2 ∧ t.dt.toNat = s.dt.toNat - 1 ∧ t.st.toNat = s.st.toNat - 1 ∧ sameMemory s t ∧ t.fb = s.fb

/-! ## Reset, the host and whole runs (spec/10_state.md, spec/70_reset_and_hazards.md) -/

/-- The reset values of R43 (the values the source does not name are decision D19, those of the fault latch decision D1; the font is
the parameter `FONT`, whatever its bytes, R67, log 4). -/
def Obligations.ResetValues : Prop :=
  (∀ x : Reg, State.reset.reg x = 0) ∧ State.reset.i = 0 ∧ State.reset.pc = 0x200 ∧ State.reset.sp = 0 ∧
  (∀ k : Fin 16, State.reset.stack[k] = 0) ∧ State.reset.dt = 0 ∧ State.reset.st = 0 ∧
  (∀ k : Fin 80, State.reset.mem.read k.val = Config.font[k]) ∧ (∀ a, 0x50 ≤ a → State.reset.mem.read a = 0) ∧
  (∀ row col, State.reset.fb.pixel row col = false) ∧ State.reset.changed = false ∧ State.reset.keys = 0 ∧
  State.reset.wait = false ∧ State.reset.waitReg = 0 ∧ State.reset.fault = none ∧ State.reset.faultInfo = 0 ∧
  State.reset.outputs.beep = false ∧ State.reset.outputs.fault = 0

/-- `rst` from any state, halted and waiting ones too, gives the reset state and nothing of the core survives (R300, R301; decision
D14); what the host will present next is the host's (log 1). -/
def Obligations.ResetMoveForgetsEverything : Prop :=
  ∀ s : State, hostMove .rst s = .next { State.reset with inputs := s.inputs, draws := s.draws }

/-- A loader write changes one byte of memory and nothing else, and is a move only between `rst` and the first tick and from 0x200 up
(R41, R305; decision D15); outside that it has no meaning and the model refuses it (log 12). -/
def Obligations.LoaderWritesOneByteBeforeTheFirstTick : Prop :=
  ∀ (s : State) (addr : BitVec 12) (data : Byte),
    (s.loading = true → 0x200 ≤ addr.toNat → ∃ t, hostMove (.load addr data) s = .next t ∧
      t.mem.read addr.toNat = data ∧ sameMemoryOutside addr.toNat 1 s t ∧ t = { s with mem := t.mem }) ∧
    (s.loading = false ∨ addr.toNat < 0x200 → hostMove (.load addr data) s = .refused .loaderBreach) ∧
    (∀ t, step s = .next t → t.loading = false)

/-- Boot: after `rst` and a loader's two bytes at 0x200 and 0x201, the first tick executes their word, high byte first, on the reset
registers (R303, R304). -/
def Obligations.BootExecutesTheFirstWordLoaded : Prop :=
  ∀ (s : State) (b0 b1 : Byte) (inp : TickInput),
    ∃ u : State, hostMoves [.rst, .load 0x200 b0, .load 0x201 b1, .tick inp] s = exec (decodeWord (b0 ++ b1)) u ∧
      u = { State.reset with mem := u.mem, keys := inp.keys, rnd := inp.rnd, inputs := s.inputs, draws := u.draws,
                             loading := false } ∧
      u.mem.read 0x200 = b0 ∧ u.mem.read 0x201 = b1 ∧ sameMemoryOutside 0x200 2 State.reset u

/-- The output ports are views of the state (R42; the fault ports are decision D14's). -/
def Obligations.OutputPortsAreViews : Prop :=
  ∀ s : State, s.outputs.fb = s.fb ∧ s.outputs.changed = s.changed ∧ (s.outputs.beep = true ↔ s.st.toNat ≠ 0) ∧
    (s.outputs.fault = 0 ↔ s.fault = none) ∧ (∀ k, s.fault = some k → s.outputs.fault = k.code) ∧
    s.outputs.faultInfo = s.faultInfo

/-- R45's invariant holds at reset. -/
def Obligations.InvariantAtReset : Prop := State.reset.Inv

/-- R45's invariant, with memory's canonical form: every step keeps it, from every state that has it. -/
def Obligations.EveryStepKeepsTheInvariant : Prop := ∀ s t : State, s.Inv → step s = .next t → t.Inv

/-- Every move of the host keeps R45's invariant. -/
def Obligations.EveryHostMoveKeepsTheInvariant : Prop :=
  ∀ (m : HostMove) (s t : State), s.Inv → hostMove m s = .next t → t.Inv

/-- A core at rest stays at rest: for ever on the same self-jump, its timers counting down to 0, and nothing else changes but `KEYS`,
`CHANGED` and the model's own fields (R134; decision D23). -/
def Obligations.CoreAtRestStaysAtRest : Prop :=
  ∀ (k : Nat) (a : BitVec 12) (s : State), s.atRest a → ∃ t, runTicks k s = .next t ∧ t.atRest a ∧
    t.dt.toNat = s.dt.toNat - k ∧ t.st.toNat = s.st.toNat - k ∧
    t = { s with dt := t.dt, st := t.st, keys := t.keys, changed := t.changed, rnd := t.rnd, inputs := t.inputs,
                 draws := t.draws, loading := t.loading } ∧
    sameMemory s t
end

