-- ==== Sys2Proof/Laws/Decode.lean ====
section
/-! SUPPORT. The fields of the words the encoder makes (spec/30_encoding.md R91, R93), and the bytes of a word. -/

namespace Sys2Proof

/-! ## A word made of nibbles -/

@[simp] theorem opField_ofNibbles (a b c d : BitVec 4) : opField (Word.ofNibbles a b c d) = a := by
  ext i hi
  simp only [opField, Word.ofNibbles, BitVec.getElem_extractLsb', BitVec.getLsbD_append]
  simp [hi, show ¬(12 + i < 4) by omega, show ¬(12 + i - 4 < 4) by omega, show ¬(12 + i - 4 - 4 < 4) by omega, show 12 + i - 4 - 4 - 4 = i by omega]

@[simp] theorem xBits_ofNibbles (a b c d : BitVec 4) : xBits (Word.ofNibbles a b c d) = b := by
  ext i hi
  simp only [xBits, Word.ofNibbles, BitVec.getElem_extractLsb', BitVec.getLsbD_append]
  simp [hi, show ¬(8 + i < 4) by omega, show ¬(8 + i - 4 < 4) by omega, show 8 + i - 4 - 4 = i by omega]

@[simp] theorem yBits_ofNibbles (a b c d : BitVec 4) : yBits (Word.ofNibbles a b c d) = c := by
  ext i hi
  simp only [yBits, Word.ofNibbles, BitVec.getElem_extractLsb', BitVec.getLsbD_append]
  simp [hi, show ¬(4 + i < 4) by omega, show 4 + i - 4 = i by omega]

@[simp] theorem nBits_ofNibbles (a b c d : BitVec 4) : nBits (Word.ofNibbles a b c d) = d := by
  ext i hi
  simp only [nBits, Word.ofNibbles, BitVec.getElem_extractLsb', BitVec.getLsbD_append]
  simp [hi]

/-- A word is its four nibbles. -/
theorem ofNibbles_fields (w : Word) : Word.ofNibbles (opField w) (xBits w) (yBits w) (nBits w) = w := by
  simp only [Word.ofNibbles, opField, xBits, yBits, nBits]
  rw [BitVec.extractLsb'_append_extractLsb'_eq_extractLsb' (by rfl),
    BitVec.extractLsb'_append_extractLsb'_eq_extractLsb' (by rfl),
    BitVec.extractLsb'_append_extractLsb'_eq_extractLsb' (by rfl)]
  simp

/-! ## The formats -/

@[simp] theorem opField_encodeNNN (op : BitVec 4) (nnn : BitVec 12) : opField (encodeNNN op nnn) = op := by
  ext i hi
  simp only [opField, encodeNNN, BitVec.getElem_extractLsb', BitVec.getLsbD_append]
  simp [hi, show ¬(12 + i < 12) by omega, show 12 + i - 12 = i by omega]

@[simp] theorem nnnField_encodeNNN (op : BitVec 4) (nnn : BitVec 12) : nnnField (encodeNNN op nnn) = nnn := by
  ext i hi
  simp only [nnnField, encodeNNN, BitVec.getElem_extractLsb', BitVec.getLsbD_append]
  simp [hi]

@[simp] theorem opField_encodeXKK (op : BitVec 4) (x : Reg) (kk : Byte) : opField (encodeXKK op x kk) = op := by
  ext i hi
  simp only [opField, encodeXKK, BitVec.getElem_extractLsb', BitVec.getLsbD_append]
  simp [hi, show ¬(12 + i < 8) by omega, show ¬(12 + i - 8 < 4) by omega, show 12 + i - 8 - 4 = i by omega]

@[simp] theorem xBits_encodeXKK (op : BitVec 4) (x : Reg) (kk : Byte) : xBits (encodeXKK op x kk) = BitVec.ofFin x := by
  ext i hi
  simp only [xBits, encodeXKK, BitVec.getElem_extractLsb', BitVec.getLsbD_append]
  simp [hi, show ¬(8 + i < 8) by omega, show 8 + i - 8 = i by omega]

@[simp] theorem kkField_encodeXKK (op : BitVec 4) (x : Reg) (kk : Byte) : kkField (encodeXKK op x kk) = kk := by
  ext i hi
  simp only [kkField, encodeXKK, BitVec.getElem_extractLsb', BitVec.getLsbD_append]
  simp [hi]

@[simp] theorem xField_encodeXKK (op : BitVec 4) (x : Reg) (kk : Byte) : xField (encodeXKK op x kk) = x := by
  simp [xField]

@[simp] theorem opField_encodeXYN (op : BitVec 4) (x y : Reg) (n : BitVec 4) : opField (encodeXYN op x y n) = op := by
  simp [encodeXYN]

@[simp] theorem xField_encodeXYN (op : BitVec 4) (x y : Reg) (n : BitVec 4) : xField (encodeXYN op x y n) = x := by
  simp [encodeXYN, xField]

@[simp] theorem yField_encodeXYN (op : BitVec 4) (x y : Reg) (n : BitVec 4) : yField (encodeXYN op x y n) = y := by
  simp [encodeXYN, yField]

@[simp] theorem nBits_encodeXYN (op : BitVec 4) (x y : Reg) (n : BitVec 4) : nBits (encodeXYN op x y n) = n := by
  simp [encodeXYN]

@[simp] theorem nField_encodeXYN (op : BitVec 4) (x y : Reg) (n : BitVec 4) :
    nField (encodeXYN op x y n) = n.toFin := by
  simp [nField]

/-- A word is its format's fields (R91). -/
theorem encodeNNN_fields (w : Word) : encodeNNN (opField w) (nnnField w) = w := by
  simp only [encodeNNN, opField, nnnField]
  rw [BitVec.extractLsb'_append_extractLsb'_eq_extractLsb' (by rfl)]
  simp

theorem encodeXKK_fields (w : Word) : encodeXKK (opField w) (xField w) (kkField w) = w := by
  simp only [encodeXKK, opField, xField, xBits, kkField]
  rw [BitVec.extractLsb'_append_extractLsb'_eq_extractLsb' (by rfl),
    BitVec.extractLsb'_append_extractLsb'_eq_extractLsb' (by rfl)]
  simp

theorem encodeXYN_fields (w : Word) : encodeXYN (opField w) (xField w) (yField w) (nBits w) = w := by
  simpa [encodeXYN, xField, yField] using ofNibbles_fields w

/-! ## Bytes -/

/-- A word is its two bytes, high byte first (R63). -/
@[simp] theorem ofBytes_hiByte_loByte (w : Word) : Word.ofBytes w.hiByte w.loByte = w := by
  simp only [Word.ofBytes, Word.hiByte, Word.loByte]
  rw [BitVec.extractLsb'_append_extractLsb'_eq_extractLsb' (by rfl)]
  simp

@[simp] theorem hiByte_ofBytes (hi lo : Byte) : (Word.ofBytes hi lo).hiByte = hi := by
  ext i h
  simp only [Word.hiByte, Word.ofBytes, BitVec.getElem_extractLsb', BitVec.getLsbD_append]
  simp [h, show ¬(8 + i < 8) by omega, show 8 + i - 8 = i by omega]

@[simp] theorem loByte_ofBytes (hi lo : Byte) : (Word.ofBytes hi lo).loByte = lo := by
  ext i h
  simp only [Word.loByte, Word.ofBytes, BitVec.getElem_extractLsb', BitVec.getLsbD_append]
  simp [h]

theorem decode_two (hi lo : Byte) (rest : List Byte) :
    decode (hi :: lo :: rest) = .ok (decodeWord (Word.ofBytes hi lo), rest) := rfl

/-- The bytes of an encoded instruction, whatever follows them, decode as its word does. -/
theorem decode_encode_bytes (i : Instr) (rest : List Byte) :
    decode (encode i ++ rest) = .ok (decodeWord (encodeWord i), rest) := by
  simp [encode, decode_two]

end Sys2Proof
end

