-- ==== Sys2Proof/Laws/Memory.lean ====
section
/-! SUPPORT. Memory's laws: read after write, and that writing keeps the canonical form. -/

namespace Sys2Proof.Machine

/-! ## The reset contents -/

/-- Below 0x50, the font parameter (R61, R67). -/
theorem Memory.resetByte_font (a : Nat) (h : a < 80) : Memory.resetByte a = Config.font[a] := by
  rw [Memory.resetByte, Memory.resetContents, dif_pos ⟨Nat.zero_le a, h⟩]
  rfl

/-- From 0x50 up, zero (R61). -/
theorem Memory.resetByte_zero (a : Nat) (h : 80 ≤ a) : Memory.resetByte a = 0 := by
  rw [Memory.resetByte, Memory.resetContents, dif_neg]
  exact fun hc => absurd hc.2 (Nat.not_lt.2 h)

/-! ## Read after write -/

theorem Memory.read_filter_ne (m : Memory) (a c : Nat) :
    Memory.read (m.filter (fun d => d.1 != a)) c = if c = a then Memory.resetByte a else Memory.read m c := by
  induction m with
  | nil => by_cases h : c = a <;> simp [Memory.read, h]
  | cons d m ih =>
    obtain ⟨k, b⟩ := d
    by_cases hk : k = a <;> by_cases hc : c = a <;> by_cases hkc : k = c <;>
      simp_all [Memory.read]

theorem Memory.read_insert (m : Memory) (a c : Nat) (b : Byte) (h : ∀ d ∈ m, d.1 ≠ a) :
    Memory.read (Memory.insert m a b) c = if c = a then b else Memory.read m c := by
  induction m with
  | nil =>
    rcases eq_or_ne c a with rfl | hc
    · simp [Memory.insert, Memory.read]
    · simp [Memory.insert, Memory.read, hc, hc.symm]
  | cons d m ih =>
    obtain ⟨k, e⟩ := d
    have hk : k ≠ a := h (k, e) (by simp)
    have ih' := ih (fun d hd => h d (by simp [hd]))
    by_cases hlt : a < k
    · rcases eq_or_ne c a with rfl | hc
      · simp [Memory.insert, Memory.read, hlt]
      · simp [Memory.insert, Memory.read, hlt, hc, hc.symm]
    · by_cases hkc : k = c
      · subst hkc; simp [Memory.insert, Memory.read, hlt, hk]
      · simp [Memory.insert, Memory.read, hlt, hkc, ih']

/-- A read after a write: the byte written at its address, everywhere else what was there (R74 (3)). -/
theorem Memory.read_write (m : Memory) (a c : Nat) (b : Byte) :
    (m.write a b).read c = if c = a then b else m.read c := by
  unfold Memory.write
  split
  · rename_i hb
    simp [Memory.read_filter_ne, hb]
  · rw [Memory.read_insert _ _ _ _ (by simp)]
    by_cases hc : c = a <;> simp [hc, Memory.read_filter_ne]

@[simp] theorem Memory.read_write_same (m : Memory) (a : Nat) (b : Byte) : (m.write a b).read a = b := by
  simp [Memory.read_write]

theorem Memory.read_write_other (m : Memory) {a c : Nat} (b : Byte) (h : c ≠ a) :
    (m.write a b).read c = m.read c := by
  simp [Memory.read_write, h]

/-- Reading outside the bytes a list of bytes was written to. -/
theorem Memory.read_writeBytes_other (bs : List Byte) :
    ∀ (m : Memory) (a c : Nat), c < a ∨ a + bs.length ≤ c → (m.writeBytes a bs).read c = m.read c := by
  induction bs with
  | nil => intros; rfl
  | cons b bs ih =>
    intro m a c h
    simp only [List.length_cons] at h
    rw [Memory.writeBytes, ih _ _ _ (by omega), Memory.read_write_other _ _ (by omega)]

/-- Reading the `j`-th byte of a list of bytes written at `a`. -/
theorem Memory.read_writeBytes (bs : List Byte) :
    ∀ (m : Memory) (a j : Nat) (h : j < bs.length), (m.writeBytes a bs).read (a + j) = bs[j] := by
  induction bs with
  | nil => intro m a j h; simp at h
  | cons b bs ih =>
    intro m a j h
    cases j with
    | zero =>
      rw [Memory.writeBytes, Memory.read_writeBytes_other _ _ _ _ (by omega)]
      simp
    | succ j =>
      have := ih (m.write a b) (a + 1) j (by simpa using h)
      rw [Memory.writeBytes, show a + (j + 1) = a + 1 + j by omega, this]
      simp

/-! ## The canonical form -/

theorem Memory.mem_insert (m : Memory) (a : Nat) (b : Byte) (d : Host.Cell) :
    d ∈ Memory.insert m a b ↔ d = (a, b) ∨ d ∈ m := by
  induction m with
  | nil => simp [Memory.insert]
  | cons e m ih =>
    obtain ⟨k, c⟩ := e
    by_cases h : a < k
    · simp [Memory.insert, h]
    · simp [Memory.insert, h, ih, or_left_comm]

theorem Memory.insert_rising (m : Memory) (a : Nat) (b : Byte) (hm : (m.map Prod.fst).Pairwise (· < ·))
    (ha : ∀ d ∈ m, d.1 ≠ a) : ((Memory.insert m a b).map Prod.fst).Pairwise (· < ·) := by
  induction m with
  | nil => simp [Memory.insert]
  | cons e m ih =>
    obtain ⟨k, c⟩ := e
    simp only [List.map_cons, List.pairwise_cons] at hm
    have hk : k ≠ a := ha (k, c) (by simp)
    by_cases h : a < k
    · simp only [Memory.insert, h, if_true, List.map_cons, List.pairwise_cons, List.mem_cons]
      refine ⟨?_, hm.1, hm.2⟩
      rintro x (rfl | hx)
      · exact h
      · exact lt_trans h (hm.1 x hx)
    · simp only [Memory.insert, h, if_false, List.map_cons, List.pairwise_cons]
      refine ⟨?_, ih hm.2 (fun d hd => ha d (by simp [hd]))⟩
      intro x hx
      obtain ⟨d, hd, rfl⟩ := List.mem_map.1 hx
      rcases (Memory.mem_insert m a b d).1 hd with rfl | hd
      · show k < a; omega
      · exact hm.1 _ (List.mem_map_of_mem hd)

/-- Writing a byte of the machine's address space keeps the canonical form. -/
theorem Memory.write_wf (m : Memory) (a : Nat) (b : Byte) (hm : m.wf) (ha : a < Config.memSize) :
    (m.write a b).wf := by
  have hsub : ((m.filter (fun c => c.1 != a)).map Prod.fst).Pairwise (· < ·) :=
    hm.1.sublist (List.filter_sublist.map _)
  have hcells : ∀ c ∈ m.filter (fun c => c.1 != a), c.1 < Config.memSize ∧ c.2 ≠ Memory.resetByte c.1 :=
    fun c hc => hm.2 c (List.mem_of_mem_filter hc)
  unfold Memory.write
  split
  · exact ⟨hsub, hcells⟩
  · rename_i hb
    refine ⟨Memory.insert_rising _ _ _ hsub (by simp), fun c hc => ?_⟩
    rcases (Memory.mem_insert _ _ _ _).1 hc with rfl | hc
    · exact ⟨ha, hb⟩
    · exact hcells c hc

theorem Memory.writeBytes_wf (bs : List Byte) :
    ∀ (m : Memory) (a : Nat), m.wf → a + bs.length ≤ Config.memSize → (m.writeBytes a bs).wf := by
  induction bs with
  | nil => intro m a hm _; exact hm
  | cons b bs ih =>
    intro m a hm h
    simp only [List.length_cons] at h
    exact ih _ _ (Memory.write_wf m a b hm (by omega)) (by omega)

/-- What a canonical memory lists: exactly the bytes that read as other than the reset contents. -/
theorem Memory.mem_iff_read (m : Memory) (hm : m.wf) (a : Nat) (b : Byte) :
    (a, b) ∈ m ↔ m.read a = b ∧ b ≠ Memory.resetByte a := by
  induction m with
  | nil => simp [Memory.read, eq_comm]
  | cons d m ih =>
    obtain ⟨k, c⟩ := d
    obtain ⟨hp, hc⟩ := hm
    simp only [List.map_cons, List.pairwise_cons] at hp
    have hm' : Memory.wf m := ⟨hp.2, fun d hd => hc d (by simp [hd])⟩
    have hkc := (hc (k, c) (by simp)).2
    rcases eq_or_ne k a with rfl | hk
    · have hnot : (k, b) ∉ m := fun h => lt_irrefl k (hp.1 k (List.mem_map_of_mem h))
      simp only [List.mem_cons, Prod.mk.injEq, true_and, hnot, or_false, Memory.read, if_true]
      exact ⟨fun h => ⟨h.symm, h ▸ hkc⟩, fun h => h.1.symm⟩
    · simp [Memory.read, hk, hk.symm, ih hm']

/-- Equal canonical memories are equal data: a memory is what its addresses read as. -/
theorem Memory.eq_of_read (m m' : Memory) (hm : m.wf) (hm' : m'.wf) (h : ∀ a, m.read a = m'.read a) : m = m' := by
  have hr : ∀ l : Memory, l.wf → l.Pairwise (fun c d => c.1 < d.1) := fun l hl => List.pairwise_map.1 hl.1
  have : Std.Irrefl (fun c d : Host.Cell => c.1 < d.1) := ⟨fun c => lt_irrefl c.1⟩
  have : Std.Asymm (fun c d : Host.Cell => c.1 < d.1) := ⟨fun c d => lt_asymm⟩
  refine List.Pairwise.eq_of_mem_iff (hr m hm) (hr m' hm') fun c => ?_
  obtain ⟨a, b⟩ := c
  rw [Memory.mem_iff_read m hm, Memory.mem_iff_read m' hm', h]

theorem Memory.reset_wf : Memory.wf State.reset.mem := by decide

end Sys2Proof.Machine
end

