-- ==== Sys2Proof/Laws/State.lean ====
section
/-! SUPPORT. One lemma per field per update of the state, so that no proof unfolds a record update. -/

namespace Sys2Proof.Machine

/-! ## `State.setReg` -/

@[simp] theorem State.setReg_v (s : State) (x : Reg) (b : Byte) :
    (s.setReg x b).v = s.v.set x.val b x.isLt := rfl
@[simp] theorem State.setReg_i (s : State) (x : Reg) (b : Byte) :
    (s.setReg x b).i = s.i := rfl
@[simp] theorem State.setReg_pc (s : State) (x : Reg) (b : Byte) :
    (s.setReg x b).pc = s.pc := rfl
@[simp] theorem State.setReg_sp (s : State) (x : Reg) (b : Byte) :
    (s.setReg x b).sp = s.sp := rfl
@[simp] theorem State.setReg_stack (s : State) (x : Reg) (b : Byte) :
    (s.setReg x b).stack = s.stack := rfl
@[simp] theorem State.setReg_dt (s : State) (x : Reg) (b : Byte) :
    (s.setReg x b).dt = s.dt := rfl
@[simp] theorem State.setReg_st (s : State) (x : Reg) (b : Byte) :
    (s.setReg x b).st = s.st := rfl
@[simp] theorem State.setReg_mem (s : State) (x : Reg) (b : Byte) :
    (s.setReg x b).mem = s.mem := rfl
@[simp] theorem State.setReg_fb (s : State) (x : Reg) (b : Byte) :
    (s.setReg x b).fb = s.fb := rfl
@[simp] theorem State.setReg_changed (s : State) (x : Reg) (b : Byte) :
    (s.setReg x b).changed = s.changed := rfl
@[simp] theorem State.setReg_keys (s : State) (x : Reg) (b : Byte) :
    (s.setReg x b).keys = s.keys := rfl
@[simp] theorem State.setReg_wait (s : State) (x : Reg) (b : Byte) :
    (s.setReg x b).wait = s.wait := rfl
@[simp] theorem State.setReg_waitReg (s : State) (x : Reg) (b : Byte) :
    (s.setReg x b).waitReg = s.waitReg := rfl
@[simp] theorem State.setReg_fault (s : State) (x : Reg) (b : Byte) :
    (s.setReg x b).fault = s.fault := rfl
@[simp] theorem State.setReg_faultInfo (s : State) (x : Reg) (b : Byte) :
    (s.setReg x b).faultInfo = s.faultInfo := rfl
@[simp] theorem State.setReg_rnd (s : State) (x : Reg) (b : Byte) :
    (s.setReg x b).rnd = s.rnd := rfl
@[simp] theorem State.setReg_inputs (s : State) (x : Reg) (b : Byte) :
    (s.setReg x b).inputs = s.inputs := rfl
@[simp] theorem State.setReg_draws (s : State) (x : Reg) (b : Byte) :
    (s.setReg x b).draws = s.draws := rfl
@[simp] theorem State.setReg_loading (s : State) (x : Reg) (b : Byte) :
    (s.setReg x b).loading = s.loading := rfl

/-! ## `State.setFlagThenReg` -/

@[simp] theorem State.setFlagThenReg_v (s : State) (f : Bool) (x : Reg) (b : Byte) :
    (s.setFlagThenReg f x b).v = (s.v.set VF.val (Byte.ofFlag f) VF.isLt).set x.val b x.isLt := rfl
@[simp] theorem State.setFlagThenReg_i (s : State) (f : Bool) (x : Reg) (b : Byte) :
    (s.setFlagThenReg f x b).i = s.i := rfl
@[simp] theorem State.setFlagThenReg_pc (s : State) (f : Bool) (x : Reg) (b : Byte) :
    (s.setFlagThenReg f x b).pc = s.pc := rfl
@[simp] theorem State.setFlagThenReg_sp (s : State) (f : Bool) (x : Reg) (b : Byte) :
    (s.setFlagThenReg f x b).sp = s.sp := rfl
@[simp] theorem State.setFlagThenReg_stack (s : State) (f : Bool) (x : Reg) (b : Byte) :
    (s.setFlagThenReg f x b).stack = s.stack := rfl
@[simp] theorem State.setFlagThenReg_dt (s : State) (f : Bool) (x : Reg) (b : Byte) :
    (s.setFlagThenReg f x b).dt = s.dt := rfl
@[simp] theorem State.setFlagThenReg_st (s : State) (f : Bool) (x : Reg) (b : Byte) :
    (s.setFlagThenReg f x b).st = s.st := rfl
@[simp] theorem State.setFlagThenReg_mem (s : State) (f : Bool) (x : Reg) (b : Byte) :
    (s.setFlagThenReg f x b).mem = s.mem := rfl
@[simp] theorem State.setFlagThenReg_fb (s : State) (f : Bool) (x : Reg) (b : Byte) :
    (s.setFlagThenReg f x b).fb = s.fb := rfl
@[simp] theorem State.setFlagThenReg_changed (s : State) (f : Bool) (x : Reg) (b : Byte) :
    (s.setFlagThenReg f x b).changed = s.changed := rfl
@[simp] theorem State.setFlagThenReg_keys (s : State) (f : Bool) (x : Reg) (b : Byte) :
    (s.setFlagThenReg f x b).keys = s.keys := rfl
@[simp] theorem State.setFlagThenReg_wait (s : State) (f : Bool) (x : Reg) (b : Byte) :
    (s.setFlagThenReg f x b).wait = s.wait := rfl
@[simp] theorem State.setFlagThenReg_waitReg (s : State) (f : Bool) (x : Reg) (b : Byte) :
    (s.setFlagThenReg f x b).waitReg = s.waitReg := rfl
@[simp] theorem State.setFlagThenReg_fault (s : State) (f : Bool) (x : Reg) (b : Byte) :
    (s.setFlagThenReg f x b).fault = s.fault := rfl
@[simp] theorem State.setFlagThenReg_faultInfo (s : State) (f : Bool) (x : Reg) (b : Byte) :
    (s.setFlagThenReg f x b).faultInfo = s.faultInfo := rfl
@[simp] theorem State.setFlagThenReg_rnd (s : State) (f : Bool) (x : Reg) (b : Byte) :
    (s.setFlagThenReg f x b).rnd = s.rnd := rfl
@[simp] theorem State.setFlagThenReg_inputs (s : State) (f : Bool) (x : Reg) (b : Byte) :
    (s.setFlagThenReg f x b).inputs = s.inputs := rfl
@[simp] theorem State.setFlagThenReg_draws (s : State) (f : Bool) (x : Reg) (b : Byte) :
    (s.setFlagThenReg f x b).draws = s.draws := rfl
@[simp] theorem State.setFlagThenReg_loading (s : State) (f : Bool) (x : Reg) (b : Byte) :
    (s.setFlagThenReg f x b).loading = s.loading := rfl

/-! ## `State.storeAtI` -/

@[simp] theorem State.storeAtI_v (s : State) (bs : List Byte) :
    (s.storeAtI bs).v = s.v := rfl
@[simp] theorem State.storeAtI_i (s : State) (bs : List Byte) :
    (s.storeAtI bs).i = s.i := rfl
@[simp] theorem State.storeAtI_pc (s : State) (bs : List Byte) :
    (s.storeAtI bs).pc = s.pc := rfl
@[simp] theorem State.storeAtI_sp (s : State) (bs : List Byte) :
    (s.storeAtI bs).sp = s.sp := rfl
@[simp] theorem State.storeAtI_stack (s : State) (bs : List Byte) :
    (s.storeAtI bs).stack = s.stack := rfl
@[simp] theorem State.storeAtI_dt (s : State) (bs : List Byte) :
    (s.storeAtI bs).dt = s.dt := rfl
@[simp] theorem State.storeAtI_st (s : State) (bs : List Byte) :
    (s.storeAtI bs).st = s.st := rfl
@[simp] theorem State.storeAtI_mem (s : State) (bs : List Byte) :
    (s.storeAtI bs).mem = s.mem.writeBytes (s.dataAddr 0) bs := rfl
@[simp] theorem State.storeAtI_fb (s : State) (bs : List Byte) :
    (s.storeAtI bs).fb = s.fb := rfl
@[simp] theorem State.storeAtI_changed (s : State) (bs : List Byte) :
    (s.storeAtI bs).changed = s.changed := rfl
@[simp] theorem State.storeAtI_keys (s : State) (bs : List Byte) :
    (s.storeAtI bs).keys = s.keys := rfl
@[simp] theorem State.storeAtI_wait (s : State) (bs : List Byte) :
    (s.storeAtI bs).wait = s.wait := rfl
@[simp] theorem State.storeAtI_waitReg (s : State) (bs : List Byte) :
    (s.storeAtI bs).waitReg = s.waitReg := rfl
@[simp] theorem State.storeAtI_fault (s : State) (bs : List Byte) :
    (s.storeAtI bs).fault = s.fault := rfl
@[simp] theorem State.storeAtI_faultInfo (s : State) (bs : List Byte) :
    (s.storeAtI bs).faultInfo = s.faultInfo := rfl
@[simp] theorem State.storeAtI_rnd (s : State) (bs : List Byte) :
    (s.storeAtI bs).rnd = s.rnd := rfl
@[simp] theorem State.storeAtI_inputs (s : State) (bs : List Byte) :
    (s.storeAtI bs).inputs = s.inputs := rfl
@[simp] theorem State.storeAtI_draws (s : State) (bs : List Byte) :
    (s.storeAtI bs).draws = s.draws := rfl
@[simp] theorem State.storeAtI_loading (s : State) (bs : List Byte) :
    (s.storeAtI bs).loading = s.loading := rfl

/-! ## `State.loadRegs` -/

@[simp] theorem State.loadRegs_v (s : State) (x : Reg) :
    (s.loadRegs x).v = Vector.ofFn fun k : Reg => if k.val ≤ x.val then s.dataByte k.val else s.reg k := rfl
@[simp] theorem State.loadRegs_i (s : State) (x : Reg) :
    (s.loadRegs x).i = s.i := rfl
@[simp] theorem State.loadRegs_pc (s : State) (x : Reg) :
    (s.loadRegs x).pc = s.pc := rfl
@[simp] theorem State.loadRegs_sp (s : State) (x : Reg) :
    (s.loadRegs x).sp = s.sp := rfl
@[simp] theorem State.loadRegs_stack (s : State) (x : Reg) :
    (s.loadRegs x).stack = s.stack := rfl
@[simp] theorem State.loadRegs_dt (s : State) (x : Reg) :
    (s.loadRegs x).dt = s.dt := rfl
@[simp] theorem State.loadRegs_st (s : State) (x : Reg) :
    (s.loadRegs x).st = s.st := rfl
@[simp] theorem State.loadRegs_mem (s : State) (x : Reg) :
    (s.loadRegs x).mem = s.mem := rfl
@[simp] theorem State.loadRegs_fb (s : State) (x : Reg) :
    (s.loadRegs x).fb = s.fb := rfl
@[simp] theorem State.loadRegs_changed (s : State) (x : Reg) :
    (s.loadRegs x).changed = s.changed := rfl
@[simp] theorem State.loadRegs_keys (s : State) (x : Reg) :
    (s.loadRegs x).keys = s.keys := rfl
@[simp] theorem State.loadRegs_wait (s : State) (x : Reg) :
    (s.loadRegs x).wait = s.wait := rfl
@[simp] theorem State.loadRegs_waitReg (s : State) (x : Reg) :
    (s.loadRegs x).waitReg = s.waitReg := rfl
@[simp] theorem State.loadRegs_fault (s : State) (x : Reg) :
    (s.loadRegs x).fault = s.fault := rfl
@[simp] theorem State.loadRegs_faultInfo (s : State) (x : Reg) :
    (s.loadRegs x).faultInfo = s.faultInfo := rfl
@[simp] theorem State.loadRegs_rnd (s : State) (x : Reg) :
    (s.loadRegs x).rnd = s.rnd := rfl
@[simp] theorem State.loadRegs_inputs (s : State) (x : Reg) :
    (s.loadRegs x).inputs = s.inputs := rfl
@[simp] theorem State.loadRegs_draws (s : State) (x : Reg) :
    (s.loadRegs x).draws = s.draws := rfl
@[simp] theorem State.loadRegs_loading (s : State) (x : Reg) :
    (s.loadRegs x).loading = s.loading := rfl

/-! ## `State.latchInputs` -/

@[simp] theorem State.latchInputs_v (s : State) (inp : TickInput) :
    (s.latchInputs inp).v = s.v := rfl
@[simp] theorem State.latchInputs_i (s : State) (inp : TickInput) :
    (s.latchInputs inp).i = s.i := rfl
@[simp] theorem State.latchInputs_pc (s : State) (inp : TickInput) :
    (s.latchInputs inp).pc = s.pc := rfl
@[simp] theorem State.latchInputs_sp (s : State) (inp : TickInput) :
    (s.latchInputs inp).sp = s.sp := rfl
@[simp] theorem State.latchInputs_stack (s : State) (inp : TickInput) :
    (s.latchInputs inp).stack = s.stack := rfl
@[simp] theorem State.latchInputs_dt (s : State) (inp : TickInput) :
    (s.latchInputs inp).dt = s.dt := rfl
@[simp] theorem State.latchInputs_st (s : State) (inp : TickInput) :
    (s.latchInputs inp).st = s.st := rfl
@[simp] theorem State.latchInputs_mem (s : State) (inp : TickInput) :
    (s.latchInputs inp).mem = s.mem := rfl
@[simp] theorem State.latchInputs_fb (s : State) (inp : TickInput) :
    (s.latchInputs inp).fb = s.fb := rfl
@[simp] theorem State.latchInputs_changed (s : State) (inp : TickInput) :
    (s.latchInputs inp).changed = false := rfl
@[simp] theorem State.latchInputs_keys (s : State) (inp : TickInput) :
    (s.latchInputs inp).keys = inp.keys := rfl
@[simp] theorem State.latchInputs_wait (s : State) (inp : TickInput) :
    (s.latchInputs inp).wait = s.wait := rfl
@[simp] theorem State.latchInputs_waitReg (s : State) (inp : TickInput) :
    (s.latchInputs inp).waitReg = s.waitReg := rfl
@[simp] theorem State.latchInputs_fault (s : State) (inp : TickInput) :
    (s.latchInputs inp).fault = s.fault := rfl
@[simp] theorem State.latchInputs_faultInfo (s : State) (inp : TickInput) :
    (s.latchInputs inp).faultInfo = s.faultInfo := rfl
@[simp] theorem State.latchInputs_rnd (s : State) (inp : TickInput) :
    (s.latchInputs inp).rnd = inp.rnd := rfl
@[simp] theorem State.latchInputs_inputs (s : State) (inp : TickInput) :
    (s.latchInputs inp).inputs = s.inputs := rfl
@[simp] theorem State.latchInputs_draws (s : State) (inp : TickInput) :
    (s.latchInputs inp).draws = s.draws := rfl
@[simp] theorem State.latchInputs_loading (s : State) (inp : TickInput) :
    (s.latchInputs inp).loading = s.loading := rfl

/-! ## `State.countTimers` -/

@[simp] theorem State.countTimers_v (s : State) :
    s.countTimers.v = s.v := rfl
@[simp] theorem State.countTimers_i (s : State) :
    s.countTimers.i = s.i := rfl
@[simp] theorem State.countTimers_pc (s : State) :
    s.countTimers.pc = s.pc := rfl
@[simp] theorem State.countTimers_sp (s : State) :
    s.countTimers.sp = s.sp := rfl
@[simp] theorem State.countTimers_stack (s : State) :
    s.countTimers.stack = s.stack := rfl
@[simp] theorem State.countTimers_dt (s : State) :
    s.countTimers.dt = countDown s.dt := rfl
@[simp] theorem State.countTimers_st (s : State) :
    s.countTimers.st = countDown s.st := rfl
@[simp] theorem State.countTimers_mem (s : State) :
    s.countTimers.mem = s.mem := rfl
@[simp] theorem State.countTimers_fb (s : State) :
    s.countTimers.fb = s.fb := rfl
@[simp] theorem State.countTimers_changed (s : State) :
    s.countTimers.changed = s.changed := rfl
@[simp] theorem State.countTimers_keys (s : State) :
    s.countTimers.keys = s.keys := rfl
@[simp] theorem State.countTimers_wait (s : State) :
    s.countTimers.wait = s.wait := rfl
@[simp] theorem State.countTimers_waitReg (s : State) :
    s.countTimers.waitReg = s.waitReg := rfl
@[simp] theorem State.countTimers_fault (s : State) :
    s.countTimers.fault = s.fault := rfl
@[simp] theorem State.countTimers_faultInfo (s : State) :
    s.countTimers.faultInfo = s.faultInfo := rfl
@[simp] theorem State.countTimers_rnd (s : State) :
    s.countTimers.rnd = s.rnd := rfl
@[simp] theorem State.countTimers_inputs (s : State) :
    s.countTimers.inputs = s.inputs := rfl
@[simp] theorem State.countTimers_draws (s : State) :
    s.countTimers.draws = s.draws := rfl
@[simp] theorem State.countTimers_loading (s : State) :
    s.countTimers.loading = s.loading := rfl

/-! ## `State.takeInput` -/

@[simp] theorem State.takeInput_v (s : State) :
    s.takeInput.v = s.v := rfl
@[simp] theorem State.takeInput_i (s : State) :
    s.takeInput.i = s.i := rfl
@[simp] theorem State.takeInput_pc (s : State) :
    s.takeInput.pc = s.pc := rfl
@[simp] theorem State.takeInput_sp (s : State) :
    s.takeInput.sp = s.sp := rfl
@[simp] theorem State.takeInput_stack (s : State) :
    s.takeInput.stack = s.stack := rfl
@[simp] theorem State.takeInput_dt (s : State) :
    s.takeInput.dt = s.dt := rfl
@[simp] theorem State.takeInput_st (s : State) :
    s.takeInput.st = s.st := rfl
@[simp] theorem State.takeInput_mem (s : State) :
    s.takeInput.mem = s.mem := rfl
@[simp] theorem State.takeInput_fb (s : State) :
    s.takeInput.fb = s.fb := rfl
@[simp] theorem State.takeInput_changed (s : State) :
    s.takeInput.changed = s.changed := rfl
@[simp] theorem State.takeInput_keys (s : State) :
    s.takeInput.keys = s.keys := rfl
@[simp] theorem State.takeInput_wait (s : State) :
    s.takeInput.wait = s.wait := rfl
@[simp] theorem State.takeInput_waitReg (s : State) :
    s.takeInput.waitReg = s.waitReg := rfl
@[simp] theorem State.takeInput_fault (s : State) :
    s.takeInput.fault = s.fault := rfl
@[simp] theorem State.takeInput_faultInfo (s : State) :
    s.takeInput.faultInfo = s.faultInfo := rfl
@[simp] theorem State.takeInput_rnd (s : State) :
    s.takeInput.rnd = s.rnd := rfl
@[simp] theorem State.takeInput_inputs (s : State) :
    s.takeInput.inputs = s.inputs.tail := rfl
@[simp] theorem State.takeInput_draws (s : State) :
    s.takeInput.draws = s.draws + 1 := rfl
@[simp] theorem State.takeInput_loading (s : State) :
    s.takeInput.loading = false := rfl

/-! ## `State.loaderWrite` -/

@[simp] theorem State.loaderWrite_v (s : State) (addr : BitVec 12) (data : Byte) :
    (s.loaderWrite addr data).v = s.v := rfl
@[simp] theorem State.loaderWrite_i (s : State) (addr : BitVec 12) (data : Byte) :
    (s.loaderWrite addr data).i = s.i := rfl
@[simp] theorem State.loaderWrite_pc (s : State) (addr : BitVec 12) (data : Byte) :
    (s.loaderWrite addr data).pc = s.pc := rfl
@[simp] theorem State.loaderWrite_sp (s : State) (addr : BitVec 12) (data : Byte) :
    (s.loaderWrite addr data).sp = s.sp := rfl
@[simp] theorem State.loaderWrite_stack (s : State) (addr : BitVec 12) (data : Byte) :
    (s.loaderWrite addr data).stack = s.stack := rfl
@[simp] theorem State.loaderWrite_dt (s : State) (addr : BitVec 12) (data : Byte) :
    (s.loaderWrite addr data).dt = s.dt := rfl
@[simp] theorem State.loaderWrite_st (s : State) (addr : BitVec 12) (data : Byte) :
    (s.loaderWrite addr data).st = s.st := rfl
@[simp] theorem State.loaderWrite_mem (s : State) (addr : BitVec 12) (data : Byte) :
    (s.loaderWrite addr data).mem = s.mem.write addr.toNat data := rfl
@[simp] theorem State.loaderWrite_fb (s : State) (addr : BitVec 12) (data : Byte) :
    (s.loaderWrite addr data).fb = s.fb := rfl
@[simp] theorem State.loaderWrite_changed (s : State) (addr : BitVec 12) (data : Byte) :
    (s.loaderWrite addr data).changed = s.changed := rfl
@[simp] theorem State.loaderWrite_keys (s : State) (addr : BitVec 12) (data : Byte) :
    (s.loaderWrite addr data).keys = s.keys := rfl
@[simp] theorem State.loaderWrite_wait (s : State) (addr : BitVec 12) (data : Byte) :
    (s.loaderWrite addr data).wait = s.wait := rfl
@[simp] theorem State.loaderWrite_waitReg (s : State) (addr : BitVec 12) (data : Byte) :
    (s.loaderWrite addr data).waitReg = s.waitReg := rfl
@[simp] theorem State.loaderWrite_fault (s : State) (addr : BitVec 12) (data : Byte) :
    (s.loaderWrite addr data).fault = s.fault := rfl
@[simp] theorem State.loaderWrite_faultInfo (s : State) (addr : BitVec 12) (data : Byte) :
    (s.loaderWrite addr data).faultInfo = s.faultInfo := rfl
@[simp] theorem State.loaderWrite_rnd (s : State) (addr : BitVec 12) (data : Byte) :
    (s.loaderWrite addr data).rnd = s.rnd := rfl
@[simp] theorem State.loaderWrite_inputs (s : State) (addr : BitVec 12) (data : Byte) :
    (s.loaderWrite addr data).inputs = s.inputs := rfl
@[simp] theorem State.loaderWrite_draws (s : State) (addr : BitVec 12) (data : Byte) :
    (s.loaderWrite addr data).draws = s.draws := rfl
@[simp] theorem State.loaderWrite_loading (s : State) (addr : BitVec 12) (data : Byte) :
    (s.loaderWrite addr data).loading = s.loading := rfl

/-! ## `State.atExec` -/

@[simp] theorem State.atExec_v (s : State) :
    s.atExec.v = s.v := rfl
@[simp] theorem State.atExec_i (s : State) :
    s.atExec.i = s.i := rfl
@[simp] theorem State.atExec_pc (s : State) :
    s.atExec.pc = s.pc := rfl
@[simp] theorem State.atExec_sp (s : State) :
    s.atExec.sp = s.sp := rfl
@[simp] theorem State.atExec_stack (s : State) :
    s.atExec.stack = s.stack := rfl
@[simp] theorem State.atExec_dt (s : State) :
    s.atExec.dt = countDown s.dt := rfl
@[simp] theorem State.atExec_st (s : State) :
    s.atExec.st = countDown s.st := rfl
@[simp] theorem State.atExec_mem (s : State) :
    s.atExec.mem = s.mem := rfl
@[simp] theorem State.atExec_fb (s : State) :
    s.atExec.fb = s.fb := rfl
@[simp] theorem State.atExec_changed (s : State) :
    s.atExec.changed = false := rfl
@[simp] theorem State.atExec_keys (s : State) :
    s.atExec.keys = s.nextInput.keys := rfl
@[simp] theorem State.atExec_wait (s : State) :
    s.atExec.wait = s.wait := rfl
@[simp] theorem State.atExec_waitReg (s : State) :
    s.atExec.waitReg = s.waitReg := rfl
@[simp] theorem State.atExec_fault (s : State) :
    s.atExec.fault = s.fault := rfl
@[simp] theorem State.atExec_faultInfo (s : State) :
    s.atExec.faultInfo = s.faultInfo := rfl
@[simp] theorem State.atExec_rnd (s : State) :
    s.atExec.rnd = s.nextInput.rnd := rfl
@[simp] theorem State.atExec_inputs (s : State) :
    s.atExec.inputs = s.inputs.tail := rfl
@[simp] theorem State.atExec_draws (s : State) :
    s.atExec.draws = s.draws + 1 := rfl
@[simp] theorem State.atExec_loading (s : State) :
    s.atExec.loading = false := rfl

end Sys2Proof.Machine
end

