-- ==== Sys2Proof/Laws/Ops.lean ====
section
/-! SUPPORT. What each shared operation does, said once: provers cite these instead of unfolding the operation. -/

namespace Sys2Proof.Machine

/-! ## Constants -/

@[simp] theorem memSize_eq : Config.memSize = 4096 := rfl

@[simp] theorem fontBase_eq : Config.fontBase = 0 := rfl

@[simp] theorem addIFlagThreshold_eq : Config.addIFlagThreshold = 0x0F00 := rfl

@[simp] theorem stackDepth_eq : Config.stackDepth = 16 := rfl

/-! ## Registers -/

theorem State.reg_setReg (s : State) (x y : Reg) (b : Byte) :
    (s.setReg x b).reg y = if y = x then b else s.reg y := by
  simp [State.reg, Vector.getElem_set, Fin.ext_iff, eq_comm]

@[simp] theorem State.reg_setReg_same (s : State) (x : Reg) (b : Byte) : (s.setReg x b).reg x = b := by
  simp [State.reg_setReg]

theorem State.reg_setReg_other (s : State) {x y : Reg} (b : Byte) (h : y ≠ x) : (s.setReg x b).reg y = s.reg y := by
  simp [State.reg_setReg, h]

/-- `VF` first, then the destination, which wins when it is `VF` (R170). -/
theorem State.reg_setFlagThenReg (s : State) (f : Bool) (x y : Reg) (b : Byte) :
    (s.setFlagThenReg f x b).reg y = if y = x then b else if y = VF then Byte.ofFlag f else s.reg y := by
  simp only [State.setFlagThenReg, State.reg_setReg]

theorem State.reg_loadRegs (s : State) (x y : Reg) :
    (s.loadRegs x).reg y = if y.val ≤ x.val then s.dataByte y.val else s.reg y := by
  simp [State.reg]

theorem Byte.ofFlag_eq_one (f : Bool) : Byte.ofFlag f = 1 ↔ f = true := by cases f <;> decide

theorem Byte.ofFlag_eq_zero (f : Bool) : Byte.ofFlag f = 0 ↔ f = false := by cases f <;> decide

/-! ## Completing, faulting -/

theorem complete_eq_next (d : Directive) (s t : State) :
    complete d s = .next t ↔ t = { s with pc := d.nextPc s.pc } := by
  simp [complete, eq_comm]

theorem raise_eq_next (k : FaultKind) (info : Word) (s t : State) :
    raise k info s = .next t ↔ t = { s with fault := some k, faultInfo := info } := by
  simp [raise, eq_comm]

theorem complete_next (d : Directive) (s : State) : complete d s = .next { s with pc := d.nextPc s.pc } := rfl

theorem raise_next (k : FaultKind) (info : Word) (s : State) :
    raise k info s = .next { s with fault := some k, faultInfo := info } := rfl

@[simp] theorem skipIf_true : skipIf true = .skip := rfl

@[simp] theorem skipIf_false : skipIf false = .advance := rfl

/-- The range test, on unbounded integers (R72). -/
theorem inRange_iff (base : Word) (k : Nat) : inRange base k = true ↔ k = 0 ∨ base.toNat + k ≤ 0x1000 := by
  rw [inRange, Bool.or_eq_true, beq_iff_eq, decide_eq_true_iff, memSize_eq]
  omega

theorem withRange_inRange (k : Nat) (s : State) (body : Result) (h : k = 0 ∨ s.i.toNat + k ≤ 0x1000) :
    withRange k s body = body := by
  rw [withRange, (inRange_iff _ _).2 h, if_pos rfl]

theorem withRange_outOfRange (k : Nat) (s : State) (body : Result) (h : ¬(k = 0 ∨ s.i.toNat + k ≤ 0x1000)) :
    withRange k s body = raise .memFault (if s.i.toNat < 0x1000 then 0x1000 else s.i) s := by
  rw [withRange, if_neg (fun hr => h ((inRange_iff _ _).1 hr))]
  rfl

/-- An access either runs whole or raises `MemFault` (R72). -/
theorem withRange_cases (k : Nat) (s : State) (body : Result) :
    (inRange s.i k = true ∧ withRange k s body = body) ∨ withRange k s body = raise .memFault (faultAddr s.i) s := by
  unfold withRange
  split
  · exact .inl ⟨‹_›, rfl⟩
  · exact .inr rfl

theorem withKeyIndex_isKey (x : Reg) (s : State) (body : Result) (h : (s.reg x).toNat ≤ 15) :
    withKeyIndex x s body = body := by
  simp [withKeyIndex, isKeyIndex, h]

theorem withKeyIndex_notKey (x : Reg) (s : State) (body : Result) (h : ¬(s.reg x).toNat ≤ 15) :
    withKeyIndex x s body = raise .keyIndexFault (zextByte (s.reg x)) s := by
  simp [withKeyIndex, isKeyIndex, h]

/-- A key test either runs or raises `KeyIndexFault` (R241, R267). -/
theorem withKeyIndex_cases (x : Reg) (s : State) (body : Result) :
    withKeyIndex x s body = body ∨ withKeyIndex x s body = raise .keyIndexFault (zextByte (s.reg x)) s := by
  unfold withKeyIndex
  split
  · exact .inl rfl
  · exact .inr rfl

/-! ## The call stack -/

theorem State.push_some (s : State) (a : Word) (h : s.sp.val < 16) :
    s.push a = some { s with stack := s.stack.set s.sp.val a h, sp := ⟨s.sp.val + 1, Nat.succ_lt_succ h⟩ } := by
  simp [State.push, h]

theorem State.push_none (s : State) (a : Word) (h : s.sp.val = 16) : s.push a = none := by
  simp [State.push, h]

theorem State.pop_some (s : State) (h : 0 < s.sp.val) :
    s.pop = some (s.stack[s.sp.val - 1]'(by omega), { s with sp := ⟨s.sp.val - 1, by omega⟩ }) := by
  simp [State.pop, h]

theorem State.pop_none (s : State) (h : s.sp.val = 0) : s.pop = none := by
  simp [State.pop, h]

/-- `CALL` with room on the stack (R153). -/
theorem execCall_room (nnn : BitVec 12) (s : State) (h : s.sp.val < 16) :
    execCall nnn s = .next { s with
      stack := s.stack.set s.sp.val (s.pc + 2) h, sp := ⟨s.sp.val + 1, Nat.succ_lt_succ h⟩, pc := addrOperand nnn } := by
  simp only [execCall, State.push_some s _ h]
  rfl

/-- `RET` with an address stacked (R151). -/
theorem execRet_nonempty (s : State) (h : 0 < s.sp.val) :
    execRet s = .next { s with sp := ⟨s.sp.val - 1, by omega⟩, pc := s.stack[s.sp.val - 1]'(by omega) } := by
  simp only [execRet, State.pop_some s h]
  rfl

theorem execCall_full (nnn : BitVec 12) (s : State) (h : s.sp.val = 16) :
    execCall nnn s = raise .stackOverflow s.pc s := by
  simp only [execCall, State.push_none s _ h]

theorem execRet_empty (s : State) (h : s.sp.val = 0) : execRet s = raise .stackUnderflow s.pc s := by
  simp only [execRet, State.pop_none s h]

/-! ## Operands -/

theorem addrOperand_toNat (nnn : BitVec 12) : (addrOperand nnn).toNat = nnn.toNat := by
  simp only [addrOperand, BitVec.toNat_setWidth]
  omega

theorem zextByte_toNat (b : Byte) : (zextByte b).toNat = b.toNat := by
  simp only [zextByte, BitVec.toNat_setWidth]
  omega

theorem countDown_toNat (t : Byte) : (countDown t).toNat = t.toNat - 1 := by
  revert t; decide

theorem State.regsUpTo_length (s : State) (x : Reg) : (s.regsUpTo x).length = x.val + 1 := by
  simp only [State.regsUpTo, List.length_take, Vector.length_toList]
  omega

theorem State.regsUpTo_getElem (s : State) (x : Reg) (k : Nat) (h : k < (s.regsUpTo x).length) :
    (s.regsUpTo x)[k] = s.reg ⟨k, by rw [State.regsUpTo_length] at h; omega⟩ := by
  simp [State.regsUpTo, State.reg]

/-- The scan for a pressed key (R123): the answer is pressed, and no lower key is. -/
theorem State.leastKey_some (s : State) (k : Reg) :
    s.leastKey = some k ↔ s.keys.getLsbD k.val = true ∧ ∀ j : Reg, j < k → s.keys.getLsbD j.val = false := by
  rw [State.leastKey]
  generalize s.keys = ks
  constructor
  · intro h
    rw [List.find?_eq_some_iff_append] at h
    obtain ⟨hk, as, bs, hl, has⟩ := h
    refine ⟨hk, fun j hj => ?_⟩
    have hmem : j ∈ as ++ k :: bs := hl ▸ List.mem_finRange j
    have hp : (as ++ k :: bs).Pairwise (· < ·) := hl ▸ List.pairwise_lt_finRange 16
    rw [List.pairwise_append] at hp
    rcases List.mem_append.1 hmem with hj' | hj'
    · simpa using has j hj'
    · rcases List.mem_cons.1 hj' with rfl | hj'
      · exact absurd hj (lt_irrefl _)
      · exact absurd ((List.pairwise_cons.1 hp.2.1).1 j hj') (lt_asymm hj)
  · rintro ⟨hk, hlt⟩
    cases hf : (List.finRange 16).find? (fun k => ks.getLsbD k.val) with
    | none => exact absurd hk (by simpa using List.find?_eq_none.1 hf k (List.mem_finRange k))
    | some j =>
      rw [List.find?_eq_some_iff_append] at hf
      obtain ⟨hj, as, bs, hl, has⟩ := hf
      have hmem : k ∈ as ++ j :: bs := hl ▸ List.mem_finRange k
      have hp : (as ++ j :: bs).Pairwise (· < ·) := hl ▸ List.pairwise_lt_finRange 16
      rw [List.pairwise_append] at hp
      rcases List.mem_append.1 hmem with hk' | hk'
      · have h' := has k hk'
        rw [hk] at h'
        exact absurd h' (by decide)
      · rcases List.mem_cons.1 hk' with rfl | hk'
        · rfl
        · rw [hlt j ((List.pairwise_cons.1 hp.2.1).1 k hk')] at hj
          exact absurd hj (by decide)

theorem State.leastKey_none (s : State) : s.leastKey = none ↔ s.keys = 0 := by
  rw [State.leastKey, List.find?_eq_none]
  constructor
  · intro h
    ext i hi
    have h' := h ⟨i, hi⟩ (List.mem_finRange _)
    simpa [BitVec.getLsbD_eq_getElem hi] using h'
  · intro h k _
    simp [h]

/-! ## The fetch -/

theorem State.fetchWord_some (s : State) (h : s.pc.toNat ≤ 0xFFE) :
    s.fetchWord = some (Word.ofBytes (s.mem.read s.pc.toNat) (s.mem.read (s.pc.toNat + 1))) := by
  rw [State.fetchWord, if_pos]
  simp only [memSize_eq]; omega

theorem State.fetchWord_none (s : State) (h : ¬s.pc.toNat ≤ 0xFFE) : s.fetchWord = none := by
  rw [State.fetchWord, if_neg]
  simp only [memSize_eq]; omega

/-- A change of `PC` changes no register. -/
@[simp] theorem State.reg_withPc (s : State) (p : Word) (x : Reg) : State.reg { s with pc := p } x = s.reg x := rfl

@[simp] theorem State.fetchWord_atExec (s : State) : s.atExec.fetchWord = s.fetchWord := rfl

/-! ## The tick -/

theorem tick_halted (inp : TickInput) (s : State) (h : s.fault ≠ none) : tick inp s = .next s := by
  rw [tick, if_pos]
  simpa [State.halted, Option.isSome_iff_ne_none] using h

theorem tick_waiting (inp : TickInput) (s : State) (h : s.fault = none) (hw : s.wait = true) :
    tick inp s = .next (s.latchInputs inp).resolveWait := by
  simp [tick, State.halted, h, hw]

theorem tick_executing (inp : TickInput) (s : State) (h : s.fault = none) (hw : s.wait = false) :
    tick inp s = ((s.latchInputs inp).countTimers).fetchAndExec := by
  simp [tick, State.halted, h, hw]

/-! ## The step: the four kinds of tick (R121, R123, R127, R264) -/

theorem step_halted (s : State) (h : s.fault ≠ none) : step s = .next s.takeInput :=
  tick_halted s.nextInput s.takeInput h

theorem step_waiting (s : State) (h : s.fault = none) (hw : s.wait = true) :
    step s = .next (s.takeInput.latchInputs s.nextInput).resolveWait :=
  tick_waiting s.nextInput s.takeInput h hw

theorem step_executing (s : State) (w : Word) (h : s.fault = none) (hw : s.wait = false) (hf : s.fetchWord = some w) :
    step s = exec (decodeWord w) s.atExec := by
  have hf' : s.atExec.fetchWord = some w := hf
  rw [step, tick_executing s.nextInput s.takeInput h hw]
  change s.atExec.fetchAndExec = _
  rw [State.fetchAndExec, hf']

theorem step_unfetchable (s : State) (h : s.fault = none) (hw : s.wait = false) (hf : s.fetchWord = none) :
    step s = raise .fetchFault s.pc s.atExec := by
  have hf' : s.atExec.fetchWord = none := hf
  rw [step, tick_executing s.nextInput s.takeInput h hw]
  change s.atExec.fetchAndExec = _
  rw [State.fetchAndExec, hf']
  rfl

/-! ## Several ticks -/

@[simp] theorem runTicks_zero (s : State) : runTicks 0 s = .next s := rfl

theorem runTicks_succ (k : Nat) {s t : State} (h : step s = .next t) : runTicks (k + 1) s = runTicks k t := by
  have h' : Sys2Proof.core.step s = .next t := h
  simp only [runTicks, Host.Core.run, h']
  rfl

end Sys2Proof.Machine
end

