-- ==== Sys2Proof/Laws/Display.lean ====
section
/-! SUPPORT. What drawing does, pixel by pixel (spec/44_display.md R223, corner case (d)): a sprite touches no pixel twice, so the
framebuffer is the old one xor the wrapped sprite image. -/

namespace Sys2Proof.Machine

/-- A row with one bit at column `c`, or none. -/
theorem getLsbD_oneHot (bit : Bool) (c col : Fin 64) :
    ((BitVec.ofBool bit).setWidth 64 <<< c.val).getLsbD col.val = (decide (c = col) && bit) := by
  rcases eq_or_ne c col with rfl | h
  · cases bit <;> simp
  · have h' : c.val ≠ col.val := fun e => h (Fin.ext e)
    rcases Nat.lt_or_ge col.val c.val with hlt | hge
    · simp [hlt, h]
    · have : col.val - c.val ≠ 0 := by omega
      cases bit <;> simp [h, this]

theorem Framebuffer.pixel_xorPixel (fb : Framebuffer) (row r : Fin 32) (col c : Fin 64) (bit : Bool) :
    (fb.xorPixel r c bit).pixel row col = (fb.pixel row col ^^ (decide (r = row ∧ c = col) && bit)) := by
  unfold Framebuffer.pixel Framebuffer.xorPixel
  rcases eq_or_ne r row with rfl | hr
  · simp only [Fin.getElem_fin, Vector.getElem_set_self, BitVec.getLsbD_xor, getLsbD_oneHot, true_and]
  · have hr' : r.val ≠ row.val := fun h => hr (Fin.ext h)
    simp [hr, hr']

theorem Framebuffer.pixel_blank (row : Fin 32) (col : Fin 64) : Framebuffer.blank.pixel row col = false := by
  simp [Framebuffer.blank, Framebuffer.pixel]

/-- Framebuffers with the same pixels are equal. -/
theorem Framebuffer.eq_of_pixel (fb fb' : Framebuffer) (h : ∀ row col, fb.pixel row col = fb'.pixel row col) :
    fb = fb' := by
  ext r hr c hc
  have := h ⟨r, hr⟩ ⟨c, hc⟩
  simpa [Framebuffer.pixel, BitVec.getLsbD_eq_getElem hc] using this

/-- A list of pixels to draw: row, column, bit. -/
abbrev Pixels := List (Fin 32 × Fin 64 × Bool)

/-- No pixel twice. -/
def Pixels.distinct (ps : Pixels) : Prop := ps.Pairwise (fun p q => p.1 ≠ q.1 ∨ p.2.1 ≠ q.2.1)

/-- Drawing distinct pixels toggles exactly those whose bit is 1. -/
theorem pixel_foldl_drawPixel (ps : Pixels) :
    ∀ d : DrawState, ps.distinct → ∀ row col,
      (ps.foldl (fun d p => drawPixel p.1 p.2.1 p.2.2 d) d).1.pixel row col =
        (d.1.pixel row col ^^ decide ((row, col, true) ∈ ps)) := by
  induction ps with
  | nil => intro d _ row col; simp
  | cons p ps ih =>
    obtain ⟨r, c, b⟩ := p
    intro d hd row col
    obtain ⟨hp, hps⟩ := List.pairwise_cons.1 hd
    rw [List.foldl_cons, ih _ hps]
    simp only [drawPixel, Framebuffer.pixel_xorPixel]
    by_cases h : r = row ∧ c = col
    · obtain ⟨rfl, rfl⟩ := h
      have hnot : (r, c, true) ∉ ps := fun hm => by simpa using hp _ hm
      cases b <;> simp [hnot]
    · have hne : (row, col, true) ≠ (r, c, b) := by
        rintro ⟨⟩; exact h ⟨rfl, rfl⟩
      simp [h, hne]

/-- Drawing distinct pixels collides exactly when some pixel whose bit is 1 was set before. -/
theorem collision_foldl_drawPixel (ps : Pixels) :
    ∀ d : DrawState, ps.distinct →
      (ps.foldl (fun d p => drawPixel p.1 p.2.1 p.2.2 d) d).2 =
        (d.2 || decide (∃ row col, (row, col, true) ∈ ps ∧ d.1.pixel row col = true)) := by
  induction ps with
  | nil => intro d _; simp
  | cons p ps ih =>
    obtain ⟨r, c, b⟩ := p
    intro d hd
    obtain ⟨hp, hps⟩ := List.pairwise_cons.1 hd
    have hsame : ∀ row col, (row, col, true) ∈ ps →
        (drawPixel r c b d).1.pixel row col = d.1.pixel row col := by
      intro row col hm
      have hne : ¬(r = row ∧ c = col) := by
        rintro ⟨rfl, rfl⟩; simpa using hp _ hm
      simp [drawPixel, Framebuffer.pixel_xorPixel, hne]
    rw [List.foldl_cons, ih _ hps]
    have hex : (∃ row col, (row, col, true) ∈ ps ∧ (drawPixel r c b d).1.pixel row col = true) ↔
        ∃ row col, (row, col, true) ∈ ps ∧ d.1.pixel row col = true := by
      constructor <;> rintro ⟨row, col, hm, hx⟩
      · exact ⟨row, col, hm, (hsame row col hm) ▸ hx⟩
      · exact ⟨row, col, hm, (hsame row col hm).symm ▸ hx⟩
    have hcons : (∃ row col, (row, col, true) ∈ (r, c, b) :: ps ∧ d.1.pixel row col = true) ↔
        (d.1.pixel r c = true ∧ b = true) ∨ ∃ row col, (row, col, true) ∈ ps ∧ d.1.pixel row col = true := by
      constructor
      · rintro ⟨row, col, hm, hx⟩
        rcases List.mem_cons.1 hm with he | hm
        · obtain ⟨rfl, rfl, hb⟩ : row = r ∧ col = c ∧ true = b := by simpa using he
          exact .inl ⟨hx, hb.symm⟩
        · exact .inr ⟨row, col, hm, hx⟩
      · rintro (⟨hx, rfl⟩ | ⟨row, col, hm, hx⟩)
        · exact ⟨r, c, List.mem_cons_self, hx⟩
        · exact ⟨row, col, List.mem_cons_of_mem _ hm, hx⟩
    rw [decide_eq_decide.2 hex, decide_eq_decide.2 hcons, Bool.decide_or, Bool.decide_and, Bool.decide_eq_true,
      Bool.decide_eq_true, ← Bool.or_assoc]
    rfl

/-! ## The pixels of a sprite -/

/-- The pixels of one sprite byte. -/
def bytePixels (vx vy : Byte) (r : Nat) (b : Byte) : Pixels :=
  (List.range 8).map fun c => (spriteRow vy r, spriteCol vx c, spriteBit b c)

/-- The pixels of a sprite's bytes, from row `r` on. -/
def spritePixels (vx vy : Byte) : Nat → List Byte → Pixels
  | _, [] => []
  | r, b :: bs => bytePixels vx vy r b ++ spritePixels vx vy (r + 1) bs

theorem drawBytes_eq_foldl (vx vy : Byte) (bs : List Byte) :
    ∀ (r : Nat) (d : DrawState),
      drawBytes vx vy r bs d = (spritePixels vx vy r bs).foldl (fun d p => drawPixel p.1 p.2.1 p.2.2 d) d := by
  induction bs with
  | nil => intros; rfl
  | cons b bs ih =>
    intro r d
    rw [drawBytes, ih, spritePixels, List.foldl_append, drawByte, bytePixels, List.foldl_map]

theorem mem_spritePixels (vx vy : Byte) (row : Fin 32) (col : Fin 64) (bit : Bool) (bs : List Byte) :
    ∀ r : Nat, (row, col, bit) ∈ spritePixels vx vy r bs ↔
      ∃ j, ∃ h : j < bs.length, ∃ c, c < 8 ∧
        spriteRow vy (r + j) = row ∧ spriteCol vx c = col ∧ spriteBit bs[j] c = bit := by
  induction bs with
  | nil => intro r; simp [spritePixels]
  | cons b bs ih =>
    intro r
    rw [spritePixels, List.mem_append, ih]
    constructor
    · rintro (h | ⟨j, hj, c, hc, h⟩)
      · obtain ⟨c, hc, h⟩ := List.mem_map.1 h
        obtain ⟨h1, h2, h3⟩ := by simpa using h
        exact ⟨0, by simp, c, List.mem_range.1 hc, h1, h2, h3⟩
      · refine ⟨j + 1, by simpa using hj, c, hc, ?_⟩
        simpa [Nat.add_assoc, Nat.add_comm 1 j] using h
    · rintro ⟨j, hj, c, hc, h1, h2, h3⟩
      cases j with
      | zero => exact .inl (List.mem_map.2 ⟨c, List.mem_range.2 hc, by simpa using ⟨h1, h2, h3⟩⟩)
      | succ j =>
        refine .inr ⟨j, by simpa using hj, c, hc, ?_, h2, by simpa using h3⟩
        simpa [Nat.add_assoc, Nat.add_comm 1 j] using h1

theorem spriteCol_inj (vx : Byte) {c c' : Nat} (hc : c < 64) (hc' : c' < 64) (h : spriteCol vx c = spriteCol vx c') :
    c = c' := by
  have := congrArg Fin.val h
  simp only [spriteCol, Fin.ofNat] at this
  omega

theorem spriteRow_inj (vy : Byte) {r r' : Nat} (h1 : r < r' + 32) (h2 : r' < r + 32)
    (h : spriteRow vy r = spriteRow vy r') : r = r' := by
  have := congrArg Fin.val h
  simp only [spriteRow, Fin.ofNat] at this
  omega

/-- A sprite of at most 32 rows touches no pixel twice (R223 (d)). -/
theorem spritePixels_distinct (vx vy : Byte) (bs : List Byte) :
    ∀ r : Nat, bs.length ≤ 32 → (spritePixels vx vy r bs).distinct := by
  induction bs with
  | nil => intro r _; exact List.Pairwise.nil
  | cons b bs ih =>
    intro r hlen
    simp only [List.length_cons] at hlen
    refine List.pairwise_append.2 ⟨?_, ih _ (by omega), ?_⟩
    · refine List.pairwise_map.2 (List.Pairwise.imp_of_mem ?_ List.nodup_range)
      intro c c' hc hc' hne
      exact .inr fun h => hne (spriteCol_inj vx (by have := List.mem_range.1 hc; omega)
        (by have := List.mem_range.1 hc'; omega) h)
    · rintro ⟨r1, c1, b1⟩ hp ⟨r2, c2, b2⟩ hq
      obtain ⟨c, hc, h⟩ := List.mem_map.1 hp
      obtain ⟨h1, -, -⟩ : spriteRow vy r = r1 ∧ _ ∧ _ := by simpa using h
      obtain ⟨j, hj, c', hc', h2, -⟩ := (mem_spritePixels vx vy r2 c2 b2 bs (r + 1)).1 hq
      refine .inl fun heq => ?_
      have := spriteRow_inj vy (by omega) (by omega) (h1.trans (heq.trans h2.symm))
      omega

/-- Whether a sprite drawn at (`vx`, `vy`) has a 1 bit on the pixel (`row`, `col`). -/
def litBySprite (vx vy : Byte) (bs : List Byte) (row : Fin 32) (col : Fin 64) : Prop :=
  ∃ j, ∃ h : j < bs.length, ∃ c, c < 8 ∧ spriteRow vy j = row ∧ spriteCol vx c = col ∧ spriteBit bs[j] c = true

theorem mem_spritePixels_zero (vx vy : Byte) (bs : List Byte) (row : Fin 32) (col : Fin 64) :
    (row, col, true) ∈ spritePixels vx vy 0 bs ↔ litBySprite vx vy bs row col := by
  rw [mem_spritePixels]
  simp only [Nat.zero_add, litBySprite]

/-- A drawn pixel toggles exactly when the sprite has a 1 bit on it. -/
theorem pixel_drawBytes (vx vy : Byte) (bs : List Byte) (fb : Framebuffer) (hlen : bs.length ≤ 32)
    (row : Fin 32) (col : Fin 64) :
    ((drawBytes vx vy 0 bs (fb, false)).1.pixel row col = fb.pixel row col) ↔ ¬litBySprite vx vy bs row col := by
  rw [drawBytes_eq_foldl, pixel_foldl_drawPixel _ _ (spritePixels_distinct vx vy bs 0 hlen), ← mem_spritePixels_zero]
  cases fb.pixel row col <;> simp

/-- The collision flag: some pixel the sprite has a 1 bit on was set. -/
theorem collision_drawBytes (vx vy : Byte) (bs : List Byte) (fb : Framebuffer) (hlen : bs.length ≤ 32) :
    (drawBytes vx vy 0 bs (fb, false)).2 = true ↔
      ∃ row col, litBySprite vx vy bs row col ∧ fb.pixel row col = true := by
  rw [drawBytes_eq_foldl, collision_foldl_drawPixel _ _ (spritePixels_distinct vx vy bs 0 hlen)]
  simp [mem_spritePixels_zero]

theorem State.spriteBytes_length (s : State) (n : Nat) : (s.spriteBytes n).length = n := by
  simp [State.spriteBytes]

theorem State.spriteBytes_getElem (s : State) (n j : Nat) (h : j < (s.spriteBytes n).length) :
    (s.spriteBytes n)[j] = s.dataByte j := by
  simp [State.spriteBytes]

end Sys2Proof.Machine
end

