-- ==== Sys2Proof/Laws/PerInstr.lean ====
section
/-! SUPPORT. Statements about every instruction as syntax, one lemma per constructor. -/

namespace Sys2Proof

/-- The row of spec/30_encoding.md R94 an instruction stands in; the catch-all row of R100 for an unrecognized word. -/
def Instr.row : Instr → Pattern
  | .cls => ⟨0xFFFF, 0x00E0⟩
  | .ret => ⟨0xFFFF, 0x00EE⟩
  | .jp _ => ⟨0xF000, 0x1000⟩
  | .call _ => ⟨0xF000, 0x2000⟩
  | .seImm _ _ => ⟨0xF000, 0x3000⟩
  | .sneImm _ _ => ⟨0xF000, 0x4000⟩
  | .seReg _ _ => ⟨0xF00F, 0x5000⟩
  | .sneReg _ _ => ⟨0xF00F, 0x9000⟩
  | .ldImm _ _ => ⟨0xF000, 0x6000⟩
  | .addImm _ _ => ⟨0xF000, 0x7000⟩
  | .ldReg _ _ => ⟨0xF00F, 0x8000⟩
  | .orReg _ _ => ⟨0xF00F, 0x8001⟩
  | .andReg _ _ => ⟨0xF00F, 0x8002⟩
  | .xorReg _ _ => ⟨0xF00F, 0x8003⟩
  | .addReg _ _ => ⟨0xF00F, 0x8004⟩
  | .subReg _ _ => ⟨0xF00F, 0x8005⟩
  | .subnReg _ _ => ⟨0xF00F, 0x8007⟩
  | .shr _ _ => ⟨0xF00F, 0x8006⟩
  | .shl _ _ => ⟨0xF00F, 0x800E⟩
  | .ldI _ => ⟨0xF000, 0xA000⟩
  | .jpV0 _ => ⟨0xF000, 0xB000⟩
  | .rnd _ _ => ⟨0xF000, 0xC000⟩
  | .drw _ _ _ => ⟨0xF000, 0xD000⟩
  | .skp _ => ⟨0xF0FF, 0xE09E⟩
  | .sknp _ => ⟨0xF0FF, 0xE0A1⟩
  | .ldVxDT _ => ⟨0xF0FF, 0xF007⟩
  | .ldVxK _ => ⟨0xF0FF, 0xF00A⟩
  | .ldDTVx _ => ⟨0xF0FF, 0xF015⟩
  | .ldSTVx _ => ⟨0xF0FF, 0xF018⟩
  | .addI _ => ⟨0xF0FF, 0xF01E⟩
  | .ldF _ => ⟨0xF0FF, 0xF029⟩
  | .ldB _ => ⟨0xF0FF, 0xF033⟩
  | .store _ => ⟨0xF0FF, 0xF055⟩
  | .load _ => ⟨0xF0FF, 0xF065⟩
  | .unrec _ => ⟨0x0000, 0x0000⟩

namespace Laws.EncodedByRow

/-- The word an instruction encodes to selects the instruction's row of the opcode table, whatever its fields hold (R94). -/
def Statement (i : Instr) : Prop := encodeWord i &&& i.row.mask = i.row.bits

/-- What the four masks keep of the three formats: the op nibble, and the sub-opcode where the mask covers it. -/
theorem and_NNN (op : BitVec 4) (nnn : BitVec 12) : encodeNNN op nnn &&& 0xF000 = op ++ (0 : BitVec 12) := by
  rw [show (0xF000 : Word) = BitVec.allOnes 4 ++ (0 : BitVec 12) from rfl, encodeNNN, BitVec.and_append]
  simp only [BitVec.and_allOnes, BitVec.ofNat_eq_ofNat, BitVec.and_zero]

theorem and_XKK (op : BitVec 4) (x : Reg) (kk : Byte) :
    encodeXKK op x kk &&& 0xF000 = op ++ (0 : BitVec 4) ++ (0 : BitVec 8) := by
  rw [show (0xF000 : Word) = BitVec.allOnes 4 ++ (0 : BitVec 4) ++ (0 : BitVec 8) from rfl, encodeXKK,
    BitVec.and_append, BitVec.and_append]
  simp only [BitVec.and_allOnes, BitVec.ofNat_eq_ofNat, BitVec.and_zero]

theorem and_XSS (op : BitVec 4) (x : Reg) (kk : Byte) :
    encodeXKK op x kk &&& 0xF0FF = op ++ (0 : BitVec 4) ++ kk := by
  rw [show (0xF0FF : Word) = BitVec.allOnes 4 ++ (0 : BitVec 4) ++ BitVec.allOnes 8 from rfl, encodeXKK,
    BitVec.and_append, BitVec.and_append]
  simp only [BitVec.and_allOnes, BitVec.ofNat_eq_ofNat, BitVec.and_zero]

theorem and_XYS (op : BitVec 4) (x y : Reg) (n : BitVec 4) :
    encodeXYN op x y n &&& 0xF00F = op ++ (0 : BitVec 4) ++ (0 : BitVec 4) ++ n := by
  rw [show (0xF00F : Word) = BitVec.allOnes 4 ++ (0 : BitVec 4) ++ (0 : BitVec 4) ++ BitVec.allOnes 4 from rfl,
    encodeXYN, Word.ofNibbles, BitVec.and_append, BitVec.and_append, BitVec.and_append]
  simp only [BitVec.and_allOnes, BitVec.ofNat_eq_ofNat, BitVec.and_zero]

theorem and_XYN (op : BitVec 4) (x y : Reg) (n : BitVec 4) :
    encodeXYN op x y n &&& 0xF000 = op ++ (0 : BitVec 4) ++ (0 : BitVec 4) ++ (0 : BitVec 4) := by
  rw [show (0xF000 : Word) = BitVec.allOnes 4 ++ (0 : BitVec 4) ++ (0 : BitVec 4) ++ (0 : BitVec 4) from rfl,
    encodeXYN, Word.ofNibbles, BitVec.and_append, BitVec.and_append, BitVec.and_append]
  simp only [BitVec.and_allOnes, BitVec.ofNat_eq_ofNat, BitVec.and_zero]

theorem cls : Statement (.cls) := rfl

theorem ret : Statement (.ret) := rfl

theorem jp (nnn : BitVec 12) : Statement (.jp nnn) := (and_NNN _ nnn).trans rfl

theorem call (nnn : BitVec 12) : Statement (.call nnn) := (and_NNN _ nnn).trans rfl

theorem seImm (x : Reg) (kk : Byte) : Statement (.seImm x kk) := (and_XKK _ x kk).trans rfl

theorem sneImm (x : Reg) (kk : Byte) : Statement (.sneImm x kk) := (and_XKK _ x kk).trans rfl

theorem seReg (x y : Reg) : Statement (.seReg x y) := (and_XYS _ x y _).trans rfl

theorem sneReg (x y : Reg) : Statement (.sneReg x y) := (and_XYS _ x y _).trans rfl

theorem ldImm (x : Reg) (kk : Byte) : Statement (.ldImm x kk) := (and_XKK _ x kk).trans rfl

theorem addImm (x : Reg) (kk : Byte) : Statement (.addImm x kk) := (and_XKK _ x kk).trans rfl

theorem ldReg (x y : Reg) : Statement (.ldReg x y) := (and_XYS _ x y _).trans rfl

theorem orReg (x y : Reg) : Statement (.orReg x y) := (and_XYS _ x y _).trans rfl

theorem andReg (x y : Reg) : Statement (.andReg x y) := (and_XYS _ x y _).trans rfl

theorem xorReg (x y : Reg) : Statement (.xorReg x y) := (and_XYS _ x y _).trans rfl

theorem addReg (x y : Reg) : Statement (.addReg x y) := (and_XYS _ x y _).trans rfl

theorem subReg (x y : Reg) : Statement (.subReg x y) := (and_XYS _ x y _).trans rfl

theorem subnReg (x y : Reg) : Statement (.subnReg x y) := (and_XYS _ x y _).trans rfl

theorem shr (x y : Reg) : Statement (.shr x y) := (and_XYS _ x y _).trans rfl

theorem shl (x y : Reg) : Statement (.shl x y) := (and_XYS _ x y _).trans rfl

theorem ldI (nnn : BitVec 12) : Statement (.ldI nnn) := (and_NNN _ nnn).trans rfl

theorem jpV0 (nnn : BitVec 12) : Statement (.jpV0 nnn) := (and_NNN _ nnn).trans rfl

theorem rnd (x : Reg) (kk : Byte) : Statement (.rnd x kk) := (and_XKK _ x kk).trans rfl

theorem drw (x y : Reg) (n : Fin 16) : Statement (.drw x y n) := (and_XYN _ x y _).trans rfl

theorem skp (x : Reg) : Statement (.skp x) := (and_XSS _ x _).trans rfl

theorem sknp (x : Reg) : Statement (.sknp x) := (and_XSS _ x _).trans rfl

theorem ldVxDT (x : Reg) : Statement (.ldVxDT x) := (and_XSS _ x _).trans rfl

theorem ldVxK (x : Reg) : Statement (.ldVxK x) := (and_XSS _ x _).trans rfl

theorem ldDTVx (x : Reg) : Statement (.ldDTVx x) := (and_XSS _ x _).trans rfl

theorem ldSTVx (x : Reg) : Statement (.ldSTVx x) := (and_XSS _ x _).trans rfl

theorem addI (x : Reg) : Statement (.addI x) := (and_XSS _ x _).trans rfl

theorem ldF (x : Reg) : Statement (.ldF x) := (and_XSS _ x _).trans rfl

theorem ldB (x : Reg) : Statement (.ldB x) := (and_XSS _ x _).trans rfl

theorem store (x : Reg) : Statement (.store x) := (and_XSS _ x _).trans rfl

theorem load (x : Reg) : Statement (.load x) := (and_XSS _ x _).trans rfl

theorem unrec (w : Word) : Statement (.unrec w) := BitVec.and_zero

end Laws.EncodedByRow

end Sys2Proof
end

