-- ==== Sys2Proof/Tests/Slice0.lean ====
section
/-! SUPPORT. Tests on fixed values and witnesses for the statements' hypotheses. Expected results are those of
spec/95_test_vectors.md, named by their ids there, or are worked by hand from the encoding table (spec/30_encoding.md R94). -/

open Sys2Proof Sys2Proof.Machine

namespace Sys2Proof.Tests

/-! ## The vectors' conventions -/

/-- The state an outcome holds. -/
def nextOr (r : Result) : State :=
  match r with
  | .next t => t
  | .fault _ => State.reset
  | .refused _ => State.reset

/-- The reset state with a program's bytes at 0x200 and one tick's inputs presented. -/
def start (bs : List Byte) (keys : BitVec 16 := 0) (rnd : Byte := 0) : State :=
  { State.reset with mem := State.reset.mem.writeBytes 0x200 bs, inputs := [⟨keys, rnd⟩] }

/-- Overrides of general registers. -/
def regs (rs : List (Reg × Byte)) (s : State) : State := rs.foldl (fun s r => s.setReg r.1 r.2) s

/-- An override of memory. -/
def bytesAt (a : Nat) (bs : List Byte) (s : State) : State := { s with mem := s.mem.writeBytes a bs }

/-- An override of the framebuffer: the first row's pixels. -/
def topRow (b : BitVec 64) (s : State) : State := { s with fb := s.fb.set 0 b }

/-- What one step leaves. -/
def after (s : State) : State := nextOr (step s)

/-- A general register and the flag register after one step. -/
def regAndFlag (x : Reg) (s : State) : Byte × Byte := ((after s).reg x, (after s).reg VF)

/-- A fault after one step, with the unmoved program counter. -/
def faultAndPc (s : State) : Option FaultKind × Word × Word := ((after s).fault, (after s).faultInfo, (after s).pc)

/-! ## WellFormed: the one check refuses an `unrec` of a recognized word and takes every other term -/

theorem test_wellFormed_refuses_recognized :
    Instr.wellFormed (.unrec 0x00E0) = false ∧ Instr.wellFormed (.unrec 0x1ABC) = false ∧
    Instr.wellFormed (.unrec 0xF065) = false ∧ Instr.wellFormed (.unrec 0x800E) = false := by decide

theorem test_wellFormed_accepts :
    Instr.wellFormed (.unrec 0x00E1) = true ∧ Instr.wellFormed (.unrec 0xFFFF) = true ∧
    Instr.wellFormed .cls = true ∧ Instr.wellFormed (.drw 15 15 15) = true := by decide

/-! ## Decoding: one word per constructor, nibbles of R94 with x = A, y = B, n = 5, kk = 7F, nnn = 123 -/

theorem test_decode_flow :
    decodeWord 0x00E0 = .cls ∧ decodeWord 0x00EE = .ret ∧ decodeWord 0x1123 = .jp 0x123 ∧ decodeWord 0x2123 = .call 0x123 ∧
    decodeWord 0xB123 = .jpV0 0x123 ∧ decodeWord 0x2FFE = .call 0xFFE := by decide

theorem test_decode_skips :
    decodeWord 0x3A7F = .seImm 10 0x7F ∧ decodeWord 0x4A7F = .sneImm 10 0x7F ∧ decodeWord 0x5AB0 = .seReg 10 11 ∧
    decodeWord 0x9AB0 = .sneReg 10 11 := by decide

theorem test_decode_immediates :
    decodeWord 0x6A7F = .ldImm 10 0x7F ∧ decodeWord 0x7A7F = .addImm 10 0x7F ∧ decodeWord 0xCA7F = .rnd 10 0x7F ∧
    decodeWord 0xA123 = .ldI 0x123 := by decide

theorem test_decode_family_8 :
    decodeWord 0x8AB0 = .ldReg 10 11 ∧ decodeWord 0x8AB1 = .orReg 10 11 ∧ decodeWord 0x8AB2 = .andReg 10 11 ∧
    decodeWord 0x8AB3 = .xorReg 10 11 ∧ decodeWord 0x8AB4 = .addReg 10 11 ∧ decodeWord 0x8AB5 = .subReg 10 11 ∧
    decodeWord 0x8AB6 = .shr 10 11 ∧ decodeWord 0x8AB7 = .subnReg 10 11 ∧ decodeWord 0x8ABE = .shl 10 11 := by decide

theorem test_decode_display_and_keys :
    decodeWord 0xDAB5 = .drw 10 11 5 ∧ decodeWord 0xD125 = .drw 1 2 5 ∧ decodeWord 0xEA9E = .skp 10 ∧
    decodeWord 0xEAA1 = .sknp 10 := by decide

theorem test_decode_family_F :
    decodeWord 0xFA07 = .ldVxDT 10 ∧ decodeWord 0xFA0A = .ldVxK 10 ∧ decodeWord 0xFA15 = .ldDTVx 10 ∧
    decodeWord 0xFA18 = .ldSTVx 10 ∧ decodeWord 0xFA1E = .addI 10 ∧ decodeWord 0xFA29 = .ldF 10 ∧
    decodeWord 0xFA33 = .ldB 10 ∧ decodeWord 0xFA55 = .store 10 ∧ decodeWord 0xFA65 = .load 10 := by decide

/-- TU1's words. -/
theorem test_decode_unrecognized :
    decodeWord 0x0000 = .unrec 0x0000 ∧ decodeWord 0x00E1 = .unrec 0x00E1 ∧ decodeWord 0x0123 = .unrec 0x0123 ∧
    decodeWord 0x5011 = .unrec 0x5011 ∧ decodeWord 0x8018 = .unrec 0x8018 ∧ decodeWord 0x801F = .unrec 0x801F ∧
    decodeWord 0x9011 = .unrec 0x9011 ∧ decodeWord 0xE09F = .unrec 0xE09F ∧ decodeWord 0xE000 = .unrec 0xE000 ∧
    decodeWord 0xF000 = .unrec 0xF000 ∧ decodeWord 0xF01F = .unrec 0xF01F ∧ decodeWord 0xF075 = .unrec 0xF075 ∧
    decodeWord 0xF085 = .unrec 0xF085 ∧ decodeWord 0xFFFF = .unrec 0xFFFF := by decide

theorem test_decode_bytes_high_first :
    decodeTableWord 16 0x6A7F = some (.ldImm 10 0x7F) ∧ encode (.ldImm 10 0x7F) = [0x6A, 0x7F] := by decide

/-! ## Control flow -/

/-- TG1. -/
theorem test_cls :
    (after (topRow 0x10 (start [0x00, 0xE0]))).fb = Vector.replicate 32 0 ∧
    (after (start [0x00, 0xE0])).changed = true ∧ (after (start [0x00, 0xE0])).pc = 0x202 := by decide

/-- TC12, its second tick. -/
theorem test_ret :
    let s := { start [0x00, 0xEE] with sp := 1, stack := (Vector.replicate 16 0).set 0 0x0206 }
    (after s).pc = 0x206 ∧ (after s).sp = 0 ∧ (after s).stack[0] = 0x206 := by decide

/-- TC13. -/
theorem test_ret_underflow : faultAndPc (start [0x00, 0xEE]) = (some .stackUnderflow, 0x200, 0x200) := by decide

/-- TC1. -/
theorem test_jp : (after (start [0x1A, 0xBC])).pc = 0xABC := by decide

/-- TC3. -/
theorem test_call :
    let t := after (start [0x23, 0x00])
    t.stack[0] = 0x202 ∧ t.sp = 1 ∧ t.pc = 0x300 := by decide

/-- TC14, its last tick. -/
theorem test_call_overflow :
    let s := { start [0x22, 0x00] with sp := 16, stack := Vector.replicate 16 0x0202 }
    faultAndPc s = (some .stackOverflow, 0x200, 0x200) ∧ (after s).sp = 16 ∧ (after s).stack = s.stack := by decide

/-- TC4, TC5. -/
theorem test_seImm :
    (after (regs [(0, 0x42)] (start [0x30, 0x42]))).pc = 0x204 ∧
    (after (regs [(0, 0x41)] (start [0x30, 0x42]))).pc = 0x202 := by decide

/-- TC6, TC7. -/
theorem test_sneImm :
    (after (regs [(0, 0x42)] (start [0x40, 0x42]))).pc = 0x202 ∧
    (after (regs [(0, 0x41)] (start [0x40, 0x42]))).pc = 0x204 := by decide

/-- TC8. -/
theorem test_seReg :
    (after (regs [(0, 7), (1, 7)] (start [0x50, 0x10]))).pc = 0x204 ∧
    (after (regs [(0, 7), (1, 8)] (start [0x50, 0x10]))).pc = 0x202 := by decide

/-- TC9. -/
theorem test_sneReg :
    (after (regs [(0, 7), (1, 7)] (start [0x90, 0x10]))).pc = 0x202 ∧
    (after (regs [(0, 7), (1, 8)] (start [0x90, 0x10]))).pc = 0x204 := by decide

/-- TC11, TC15. -/
theorem test_jpV0 :
    (after (regs [(0, 0x10)] (start [0xB3, 0x00]))).pc = 0x310 ∧
    (after (regs [(0, 0xFF)] (start [0xBF, 0xFF]))).pc = 0x10FE := by decide

/-- TC16, its second tick: 0xFFF is no place to fetch from. -/
theorem test_fetchFault :
    faultAndPc { start [] with pc := 0xFFF } = (some .fetchFault, 0xFFF, 0xFFF) ∧
    (after { start [] with pc := 0xFFE }).fault = none := by decide

/-! ## ALU -/

/-- TA20. -/
theorem test_ldImm : (after (start [0x6F, 0xAB])).reg VF = 0xAB := by decide

/-- TA21, TA23. -/
theorem test_addImm :
    regAndFlag 0 (regs [(0, 1), (VF, 9)] (start [0x70, 0xFF])) = (0, 9) ∧
    (after (regs [(VF, 0xFF)] (start [0x7F, 0x01]))).reg VF = 0 := by decide

/-- TA15. -/
theorem test_ldReg : regAndFlag 0 (regs [(1, 0xAB), (VF, 9)] (start [0x80, 0x10])) = (0xAB, 9) := by decide

/-- TA16. -/
theorem test_orReg : regAndFlag 0 (regs [(0, 0xF0), (1, 0x0F), (VF, 7)] (start [0x80, 0x11])) = (0xFF, 7) := by decide

/-- TA17. -/
theorem test_andReg : regAndFlag 0 (regs [(0, 0xF3), (1, 0x3F), (VF, 7)] (start [0x80, 0x12])) = (0x33, 7) := by decide

/-- TA18. -/
theorem test_xorReg : regAndFlag 0 (regs [(0, 0xF3), (1, 0x3F), (VF, 7)] (start [0x80, 0x13])) = (0xCC, 7) := by decide

/-- TA1, TA3, TA4. -/
theorem test_addReg :
    regAndFlag 0 (regs [(0, 0xC8), (1, 0x64)] (start [0x80, 0x14])) = (0x2C, 1) ∧
    regAndFlag 0 (regs [(0, 0x80), (1, 0x7F)] (start [0x80, 0x14])) = (0xFF, 0) ∧
    regAndFlag 0 (regs [(VF, 7)] (start [0x80, 0x14])) = (0, 0) := by decide

/-- TA40, TA42, TA43: the flag register as destination and as operand. -/
theorem test_addReg_flag_register :
    (after (regs [(VF, 0xF0), (1, 0x20)] (start [0x8F, 0x14]))).reg VF = 0x10 ∧
    regAndFlag 0 (regs [(0, 0xF0), (VF, 0x20)] (start [0x80, 0xF4])) = (0x10, 1) ∧
    (after (regs [(VF, 0x90)] (start [0x8F, 0xF4]))).reg VF = 0x20 := by decide

/-- TA6, TA7, TA8. -/
theorem test_subReg :
    regAndFlag 0 (regs [(0, 5), (1, 3)] (start [0x80, 0x15])) = (2, 1) ∧
    regAndFlag 0 (regs [(0, 3), (1, 5)] (start [0x80, 0x15])) = (0xFE, 0) ∧
    regAndFlag 0 (regs [(0, 7), (1, 7), (VF, 7)] (start [0x80, 0x15])) = (0, 0) := by decide

/-- TA44, TA45. -/
theorem test_subReg_flag_register :
    (after (regs [(VF, 5), (1, 3)] (start [0x8F, 0x15]))).reg VF = 2 ∧
    regAndFlag 0 (regs [(0, 5), (VF, 3)] (start [0x80, 0xF5])) = (2, 1) := by decide

/-- TA11, TA12, TA13. -/
theorem test_subnReg :
    regAndFlag 0 (regs [(0, 5), (1, 3)] (start [0x80, 0x17])) = (0xFE, 0) ∧
    regAndFlag 0 (regs [(0, 3), (1, 5)] (start [0x80, 0x17])) = (2, 1) ∧
    regAndFlag 0 (regs [(0, 7), (1, 7), (VF, 7)] (start [0x80, 0x17])) = (0, 0) := by decide

/-- TA47, TA48. -/
theorem test_subnReg_flag_register :
    (after (regs [(VF, 3), (1, 5)] (start [0x8F, 0x17]))).reg VF = 2 ∧
    regAndFlag 0 (regs [(0, 3), (VF, 5)] (start [0x80, 0xF7])) = (2, 1) := by decide

/-- TA30, TA34 under both values of `SHIFT_SRC`. -/
theorem test_shr :
    let s := regs [(0, 0x05), (1, 0x82)] (start [])
    let a := nextOr (shiftRight 0 (s.shiftSource .x 0 1) s)
    let b := nextOr (shiftRight 0 (s.shiftSource .y 0 1) s)
    a.reg 0 = 0x02 ∧ a.reg VF = 1 ∧ b.reg 0 = 0x41 ∧ b.reg VF = 0 := by decide

/-- TA51 under both values of `SHIFT_SRC`: with the flag register as destination the result stays. -/
theorem test_shr_flag_register :
    let s := regs [(VF, 0x03), (1, 0x04)] (start [])
    (nextOr (shiftRight VF (s.shiftSource .x VF 1) s)).reg VF = 0x01 ∧
    (nextOr (shiftRight VF (s.shiftSource .y VF 1) s)).reg VF = 0x02 := by decide

/-- TA31 under both values of `SHIFT_SRC`. -/
theorem test_shl :
    let s := regs [(0, 0x05), (1, 0x82)] (start [])
    let a := nextOr (shiftLeft 0 (s.shiftSource .x 0 1) s)
    let b := nextOr (shiftLeft 0 (s.shiftSource .y 0 1) s)
    a.reg 0 = 0x0A ∧ a.reg VF = 0 ∧ b.reg 0 = 0x04 ∧ b.reg VF = 1 := by decide

/-- TA50. -/
theorem test_shl_flag_register :
    let s := regs [(VF, 0x81)] (start [])
    (nextOr (shiftLeft VF (s.shiftSource .x VF VF) s)).reg VF = 0x02 := by decide

/-- TA24, TA27. -/
theorem test_rnd :
    (after (start [0xC0, 0x0F] 0 0xA7)).reg 0 = 0x07 ∧ (after (start [0xCF, 0xF0] 0 0xA7)).reg VF = 0xA0 := by decide

/-! ## Index register and memory -/

/-- TM2. -/
theorem test_ldI : (after (start [0xAF, 0xFF])).i = 0xFFF := by decide

/-- TM3, TM5, TM6. -/
theorem test_addI :
    let f := fun i v => let t := after { regs [(0, v), (VF, 7)] (start [0xF0, 0x1E]) with i := i }; (t.i, t.reg VF)
    f 0x0EFF 1 = (0x0F00, 0) ∧ f 0x0F00 1 = (0x0F01, 1) ∧ f 0x0F50 0 = (0x0F50, 1) := by decide

/-- TM8, TM10. -/
theorem test_addI_wraps_and_adds_flag :
    let t := after { regs [(0, 2), (VF, 7)] (start [0xF0, 0x1E]) with i := 0xFFFF }
    let u := after { regs [(VF, 5)] (start [0xFF, 0x1E]) with i := 0x0F00 }
    t.i = 0x0001 ∧ t.reg VF = 0 ∧ u.i = 0x0F05 ∧ u.reg VF = 1 := by decide

/-- TM12, TM14, TM15. -/
theorem test_ldF :
    (after (regs [(0, 0x0A)] (start [0xF0, 0x29]))).i = 0x32 ∧ (after (regs [(0, 0x10)] (start [0xF0, 0x29]))).i = 0x50 ∧
    (after (regs [(0, 0xFF)] (start [0xF0, 0x29]))).i = 0x4FB := by decide

/-- TM20. -/
theorem test_ldB :
    let t := after { regs [(0, 123)] (start [0xF0, 0x33]) with i := 0xFFD }
    t.mem.read 0xFFD = 1 ∧ t.mem.read 0xFFE = 2 ∧ t.mem.read 0xFFF = 3 ∧ t.fault = none := by decide

/-- TM21, TM22. -/
theorem test_ldB_faults_whole :
    let s := { regs [(0, 123)] (start [0xF0, 0x33]) with i := 0xFFE }
    faultAndPc s = (some .memFault, 0x1000, 0x200) ∧ (after s).mem = s.mem ∧
    faultAndPc { s with i := 0xFFFF } = (some .memFault, 0xFFFF, 0x200) := by decide

/-- TM23, TM30. -/
theorem test_store :
    (after { regs [(0, 0xAA)] (start [0xF0, 0x55]) with i := 0xFFF }).mem.read 0xFFF = 0xAA ∧
    (let t := after { regs [(0, 0x12)] (start [0xF1, 0x55]) with i := 0x200 }
     t.mem.read 0x200 = 0x12 ∧ t.mem.read 0x201 = 0 ∧ t.i = 0x200 ∧ t.pc = 0x202) := by decide

/-- TM24. -/
theorem test_store_faults_whole :
    let s := { regs [(0, 0xAA), (1, 0xBB)] (start [0xF1, 0x55]) with i := 0xFFF }
    faultAndPc s = (some .memFault, 0x1000, 0x200) ∧ (after s).mem.read 0xFFF = 0 := by decide

/-- TM29. -/
theorem test_load :
    (after { start [0xFF, 0x65] with i := 0x200 }).v.toList = [0xFF, 0x65] ++ List.replicate 14 0 := by decide

/-- TM28. -/
theorem test_load_faults_whole :
    let s := bytesAt 0xFFF [0x77] { regs [(0, 9), (1, 9)] (start [0xF1, 0x65]) with i := 0xFFF }
    faultAndPc s = (some .memFault, 0x1000, 0x200) ∧ (after s).v = s.v := by decide

/-- The layout of R61 under the default font of R67: TM26's bytes, and the addresses of glyphs 1, A and F. -/
theorem test_reset_contents_default_font :
    let m := Memory.resetContents Config.defaultFont
    [m 0, m 1, m 2] = [0xF0, 0x90, 0x90] ∧ [m 5, m 6, m 7, m 8, m 9] = [0x20, 0x60, 0x20, 0x20, 0x70] ∧
    m 0x32 = 0xF0 ∧ m 0x36 = 0x90 ∧ m 0x4B = 0xF0 ∧ m 0x4F = 0x80 ∧ m 0x50 = 0 ∧ m 0xFFF = 0 := by decide

/-! ## Display: a row is written as a number, column `c` being worth `2 ^ c` -/

/-- TG2 with glyph 1's bytes placed by the harness (the font is a parameter), TG7. -/
theorem test_drw :
    let t := after (bytesAt 0x305 [0x20, 0x60, 0x20, 0x20, 0x70] { start [0xD0, 0x15] with i := 0x305 })
    let u := after (bytesAt 0x300 [0x80, 0x80] { regs [(0, 64), (1, 31)] (start [0xD0, 0x12]) with i := 0x300 })
    t.fb.toList = [4, 6, 4, 4, 14] ++ List.replicate 27 0 ∧ t.reg VF = 0 ∧ t.changed = true ∧
    u.fb.toList = [1] ++ List.replicate 30 0 ++ [1] ∧ u.reg VF = 0 := by decide

/-- TG5, TG10, TG15, TG13: wrap within the row, a collision, the flag register as both coordinates, out of range. -/
theorem test_drw_corners :
    let t := after (bytesAt 0x300 [0xFF] { regs [(0, 60)] (start [0xD0, 0x11]) with i := 0x300 })
    let u := after (topRow 3 (bytesAt 0x300 [0x60] { start [0xD0, 0x11] with i := 0x300 }))
    let w := after (bytesAt 0x300 [0x80] { regs [(VF, 3)] (start [0xDF, 0xF1]) with i := 0x300 })
    t.fb[0] = 0xF00000000000000F ∧ t.reg VF = 0 ∧ u.fb[0] = 5 ∧ u.reg VF = 1 ∧ w.fb[3] = 8 ∧ w.reg VF = 0 ∧
    faultAndPc { start [0xD0, 0x1F] with i := 0xFF2 } = (some .memFault, 0x1000, 0x200) := by decide

/-! ## Keypad and timers -/

/-- TK1, TK2, TK5. -/
theorem test_skp :
    (after (regs [(0, 3)] (start [0xE0, 0x9E] 0x0008))).pc = 0x204 ∧
    (after (regs [(0, 3)] (start [0xE0, 0x9E]))).pc = 0x202 ∧
    (after (regs [(0, 15)] (start [0xE0, 0x9E] 0x8000))).pc = 0x204 := by decide

/-- TK6. -/
theorem test_skp_faults :
    let s := { regs [(0, 0x10)] (start [0xE0, 0x9E] 0xFFFF) with dt := 5, st := 1 }
    faultAndPc s = (some .keyIndexFault, 0x10, 0x200) ∧ (after s).dt = 4 ∧ (after s).st = 0 ∧
    (after s).keys = 0xFFFF := by decide

/-- TK3, TK4. -/
theorem test_sknp :
    (after (regs [(0, 3)] (start [0xE0, 0xA1] 0x0008))).pc = 0x202 ∧
    (after (regs [(0, 3)] (start [0xE0, 0xA1]))).pc = 0x204 := by decide

/-- TK7. -/
theorem test_sknp_faults :
    faultAndPc (regs [(0, 0xFF)] (start [0xE0, 0xA1])) = (some .keyIndexFault, 0xFF, 0x200) := by decide

/-- TK8. -/
theorem test_ldVxDT :
    (after { start [0xF0, 0x07] with dt := 5 }).reg 0 = 4 ∧ (after { start [0xF0, 0x07] with dt := 5 }).dt = 4 ∧
    (after (regs [(0, 9)] (start [0xF0, 0x07]))).reg 0 = 0 := by decide

/-- TK11. -/
theorem test_ldVxK :
    let t := after (start [0xF0, 0x0A] 0xFFFF)
    t.wait = true ∧ t.waitReg = 0 ∧ t.pc = 0x202 ∧ t.reg 0 = 0 := by decide

/-- TK13, its second tick. -/
theorem test_wait_takes_least_key :
    let t := after { regs [(1, 0x33)] (start [] 0x0420) with wait := true, waitReg := 1, dt := 8, pc := 0x202 }
    t.reg 1 = 5 ∧ t.wait = false ∧ t.dt = 8 ∧ t.pc = 0x202 := by decide

/-- TK9, its first tick. -/
theorem test_ldDTVx : (after { regs [(0, 2)] (start [0xF0, 0x15]) with dt := 9 }).dt = 2 := by decide

/-- TK10, its first tick. -/
theorem test_ldSTVx :
    (after (regs [(0, 1)] (start [0xF0, 0x18]))).st = 1 ∧
    (after (regs [(0, 1)] (start [0xF0, 0x18]))).outputs.beep = true := by decide

/-- TU1, one word of it. -/
theorem test_unrec :
    let s := { regs [(0, 1), (1, 2), (VF, 3)] (start [0x50, 0x11]) with i := 0x123, dt := 2 }
    after s = { s with pc := 0x202, dt := 1, inputs := [], draws := 1, loading := false } := by decide

/-- TU3. -/
theorem test_halted :
    let s := { start [0x60, 0x05] 0xFFFF with fault := some .stackUnderflow, faultInfo := 0x200, dt := 3, changed := true }
    (after s).keys = 0 ∧ (after s).dt = 3 ∧ (after s).changed = true ∧ (after s).pc = 0x200 ∧ (after s).reg 0 = 0 := by decide

/-- A table's word placed by `withFetchWord` is what the next step runs. -/
theorem test_withFetchWord :
    (match step { State.reset.withFetchWord 16 0x6A7F with inputs := [⟨0, 0⟩] } with
     | .next t => t.reg 10
     | .fault _ => 0
     | .refused _ => 0) = 0x7F := by decide

/-! ## Witnesses: states and operands that meet the statements' hypotheses -/

/-- `start` with its program counter and bytes elsewhere. -/
def startAt (a : Word) (bs : List Byte) (inputs : List TickInput) : State :=
  { State.reset with pc := a, mem := State.reset.mem.writeBytes a.toNat bs, inputs := inputs }

theorem witness_EncodeThenDecodeIsIdentity :
    (Instr.unrec 0x5011).wellFormed = true ∧ (Instr.drw 15 0 15).wellFormed = true := by decide

theorem witness_TableRowsDisjointAndExhaustive :
    (∃ p ∈ patterns, p.selects 0xF165 = true) ∧ (∀ p ∈ patterns, p.selects 0xF166 = false) := by decide

theorem witness_UnrecognizedWordsByFamily :
    decodeWord 0x00EF = .unrec 0x00EF ∧ decodeWord 0x5AB1 = .unrec 0x5AB1 ∧ decodeWord 0x8ABF = .unrec 0x8ABF ∧
    decodeWord 0x9AB1 = .unrec 0x9AB1 ∧ decodeWord 0xEA9F = .unrec 0xEA9F ∧ decodeWord 0xFA66 = .unrec 0xFA66 := by decide

theorem witness_StepRunsDecodedInstruction :
    let s := startAt 0xFFE [0x6A, 0x7F] [⟨1, 2⟩]
    s.fault = none ∧ s.wait = false ∧ s.pc.toNat ≤ 0xFFE ∧
    decode [s.mem.read s.pc.toNat, s.mem.read (s.pc.toNat + 1)] = .ok (.ldImm 10 0x7F, []) ∧
    s.inputs = ⟨1, 2⟩ :: [] :=
  ⟨rfl, rfl, by decide, rfl, rfl⟩

theorem witness_StoredBytesAreFetchedBigEndian :
    (let s := startAt 0xFFE [] []; (0xFFE : Word).toNat ≤ 0xFFE ∧ s.fault = none ∧ s.wait = false ∧ s.pc = 0xFFE) ∧
    (let s := startAt 0x201 [] []; (0x201 : Word).toNat ≤ 0xFFE ∧ s.fault = none ∧ s.wait = false ∧ s.pc = 0x201) := by decide

theorem witness_FetchBeyondMemoryFaults :
    (let s := startAt 0xFFF [] []; s.fault = none ∧ s.wait = false ∧ s.pc.toNat > 0xFFE) ∧
    (let s := startAt 0xFFFF [] []; s.fault = none ∧ s.wait = false ∧ s.pc.toNat > 0xFFE) := by decide

theorem witness_HaltedCoreNeverChanges :
    (startAt 0x200 [] []).fault = none ∧ { startAt 0x200 [] [] with fault := some .fetchFault }.fault ≠ none := by decide

theorem witness_WaitingWithoutKeyHoldsEverything :
    ∀ k ∈ [0, 1, 2],
      let s := { startAt 0x202 [] [⟨0, 1⟩, ⟨0, 2⟩] with wait := true }
      s.fault = none ∧ s.wait = true ∧ k ≤ s.inputs.length ∧ ∀ inp ∈ s.inputs.take k, inp.keys = 0 := by decide

theorem witness_WaitEndsWithLeastKey :
    let s := { startAt 0x202 [] [⟨0x0420, 0⟩] with wait := true }
    s.fault = none ∧ s.wait = true ∧ s.nextInput = ⟨0x0420, 0⟩ ∧
    (0x0420 : BitVec 16).getLsbD 5 = true ∧ (∀ j : Fin 16, j < 5 → (0x0420 : BitVec 16).getLsbD j.val = false) ∧
    (0x0001 : BitVec 16).getLsbD 0 = true ∧ (∀ j : Fin 16, j < 0 → (0x0001 : BitVec 16).getLsbD j.val = false) ∧
    (0x8000 : BitVec 16).getLsbD 15 = true ∧ (∀ j : Fin 16, j < 15 → (0x8000 : BitVec 16).getLsbD j.val = false) := by decide

theorem witness_EveryTickLatchesKeysAndClearsChanged :
    let s := startAt 0x200 [0x00, 0xE0] []
    s.fault = none ∧ s.wait = false ∧ s.fetchWord = some 0x00E0 ∧ { s with wait := true }.wait = true ∧
    { s with pc := 0xFFF }.fetchWord = none := by decide

theorem witness_TimersCountExecutingTicks :
    (let s := { startAt 0x200 [0xF0, 0x07] [] with dt := 1, st := 255 }
     s.fault = none ∧ s.wait = false ∧ s.fetchWord = some 0xF007 ∧ decodeWord 0xF007 = .ldVxDT 0) ∧
    (startAt 0x200 [0xF0, 0x15] []).fetchWord = some 0xF015 ∧ decodeWord 0xF015 = .ldDTVx 0 ∧
    (startAt 0x200 [0xF0, 0x18] []).fetchWord = some 0xF018 ∧ decodeWord 0xF018 = .ldSTVx 0 ∧
    { startAt 0x200 [] [] with wait := true }.wait = true := by decide

theorem witness_ChangedExactlyAfterClsOrDrw :
    (startAt 0x200 [0xD0, 0x1F] []).fetchWord = some 0xD01F ∧ decodeWord 0xD01F = .drw 0 1 15 ∧
    { startAt 0x200 [] [] with fault := some .memFault }.fault ≠ none ∧
    ({ startAt 0x200 [0xD0, 0x1F] [] with i := 0xFF1 }.i.toNat + 15 - 1 ≤ 0xFFF) ∧
    ¬({ startAt 0x200 [0xD0, 0x1F] [] with i := 0xFF2 }.i.toNat + 15 - 1 ≤ 0xFFF) := by decide

theorem witness_InstructionFaultsExactlyByTable :
    let s := State.reset
    faultOf .ret s = some (.stackUnderflow, 0x200) ∧ faultOf .ret { s with sp := 1 } = none ∧
    faultOf (.call 0) { s with sp := 16 } = some (.stackOverflow, 0x200) ∧ faultOf (.call 0) { s with sp := 15 } = none ∧
    faultOf (.ldB 0) { s with i := 0xFFE } = some (.memFault, 0x1000) ∧ faultOf (.ldB 0) { s with i := 0xFFD } = none := by decide

theorem witness_InstructionFaultsExactlyByTable_blocks :
    let s := State.reset
    faultOf (.store 15) { s with i := 0xFF1 } = some (.memFault, 0x1000) ∧ faultOf (.store 15) { s with i := 0xFF0 } = none ∧
    faultOf (.load 0) { s with i := 0xFFFF } = some (.memFault, 0xFFFF) ∧ faultOf (.load 0) { s with i := 0xFFF } = none ∧
    faultOf (.drw 0 0 1) { s with i := 0x1000 } = some (.memFault, 0x1000) ∧ faultOf (.drw 0 0 0) { s with i := 0x1000 } = none ∧
    faultOf (.skp 0) (s.setReg 0 16) = some (.keyIndexFault, 16) ∧ faultOf (.sknp 0) (s.setReg 0 15) = none := by decide

theorem witness_EveryInstructionAppliesItsDirective :
    faultOf (.jpV0 0xFFF) State.reset = none ∧ faultOf .ret { State.reset with sp := 16 } = none ∧
    faultOf (.skp 3) State.reset = none := by decide

theorem witness_EachStateHasOnlyItsWriters :
    (∃ t, exec (.store 15) State.reset = .next t) ∧ faultOf (.store 15) State.reset = none ∧ regWrites (.store 15) = [] ∧
    (∃ t, exec .ret State.reset = .next t) ∧ faultOf .ret State.reset ≠ none ∧
    (∃ t, exec (.load 14) State.reset = .next t) ∧ (14 : Reg) ∈ regWrites (.load 14) ∧ (15 : Reg) ∉ regWrites (.load 14) :=
  ⟨⟨_, rfl⟩, by decide, rfl, ⟨_, rfl⟩, by decide, ⟨_, rfl⟩, by decide, by decide⟩

theorem witness_FlagRegisterHasOnlyItsWriters :
    (∃ t, exec (.load 14) State.reset = .next t) ∧ writesFlag (.load 14) = false ∧ destIsVF (.load 14) = false ∧
    (∃ t, exec (.addReg 14 15) State.reset = .next t) ∧ writesFlag (.addReg 14 15) = true ∧
    destIsVF (.addReg 14 15) = false ∧ faultOf (.addReg 14 15) State.reset = none :=
  ⟨⟨_, rfl⟩, rfl, rfl, ⟨_, rfl⟩, rfl, rfl, rfl⟩

theorem witness_InputsReachOnlyTheirReaders :
    let s := startAt 0x200 [0x00, 0xE0] []
    s.fault = none ∧ s.wait = false ∧ s.fetchWord = some 0x00E0 ∧ (∀ x kk, decodeWord 0x00E0 ≠ .rnd x kk) ∧
    (∀ x, decodeWord 0x00E0 ≠ .skp x) ∧ (∀ x, decodeWord 0x00E0 ≠ .sknp x) ∧
    (startAt 0x200 [0xE0, 0x9E] []).fetchWord = some 0xE09E ∧ (∀ x kk, decodeWord 0xE09E ≠ .rnd x kk) ∧
    (startAt 0x200 [0xC0, 0x0F] []).fetchWord = some 0xC00F ∧ (∀ x, decodeWord 0xC00F ≠ .skp x) ∧
    (∀ x, decodeWord 0xC00F ≠ .sknp x) := by
  refine ⟨rfl, rfl, by decide, ?_, by decide, by decide, by decide, ?_, by decide, by decide, by decide⟩
  · intro x kk
    exact Instr.noConfusion
  · intro x kk
    exact Instr.noConfusion

theorem witness_JumpSetsTheCounter : State.reset.fault = none ∧ State.reset.wait = false := by decide

theorem witness_RegisterSkipsTestTheirCondition : (1 : BitVec 4) ≠ 0 ∧ (15 : BitVec 4) ≠ 0 := by decide

theorem witness_CallPushesReturnAddress :
    State.reset.sp.val < 16 ∧ { State.reset with sp := 15 }.sp.val < 16 := by decide

theorem witness_ReturnPopsReturnAddress :
    0 < { State.reset with sp := 1 }.sp.val ∧ 0 < { State.reset with sp := 16 }.sp.val := by decide

theorem witness_CallThenReturnComesBack :
    { State.reset with sp := 15, pc := 0xFFE }.sp.val < 16 ∧ (14 : Fin 16).val ≠ { State.reset with sp := 15 }.sp.val := by decide

theorem witness_UnrecognizedWordOnlyAdvances :
    let s := startAt 0x200 [0xF0, 0x85] []
    (∀ p ∈ patterns, p.selects 0xF085 = false) ∧ s.fault = none ∧ s.wait = false ∧ s.fetchWord = some 0xF085 := by decide

theorem witness_flag_clauses : (14 : Reg) ≠ VF ∧ (0 : Reg) ≠ VF := by decide

theorem witness_ShiftsByOneFromTheirSource :
    ∃ src : Byte, src = (if Config.shiftSrc = .x then State.reset.reg 0 else State.reset.reg 1) := ⟨_, rfl⟩

theorem witness_RandomByteIsMasked :
    let s := startAt 0x200 [0xC0, 0x0F] [⟨0, 0xA7⟩]
    s.fault = none ∧ s.wait = false ∧ s.fetchWord = some (encodeXKK 0xC 0 0x0F) := by decide

theorem witness_BcdStoresThreeDigits :
    { State.reset with i := 0xFFD }.i.toNat + 2 ≤ 0xFFF ∧
    { State.reset with i := 0xFFD }.dataAddr 0 = 0xFFD := by decide

theorem witness_StoreRegistersToMemory :
    { State.reset with i := 0xFF0 }.i.toNat + (15 : Reg).val ≤ 0xFFF ∧
    { State.reset with i := 0xFFF }.i.toNat + (0 : Reg).val ≤ 0xFFF := by decide

theorem witness_LoadRegistersFromMemory :
    { State.reset with i := 0xFF0 }.i.toNat + (15 : Reg).val ≤ 0xFFF ∧ (0 : Reg).val < (15 : Reg).val := by decide

theorem witness_StoreThenLoadRoundTrips :
    { State.reset with i := 0xFFC }.i.toNat + (3 : Reg).val ≤ 0xFFF := by decide

theorem witness_DrawXorsTheWrappedSprite :
    ({ State.reset with i := 0xFF1 }.i.toNat + (15 : Fin 16).val - 1 ≤ 0xFFF) ∧
    ((0 : Fin 16).val = 0 ∨ { State.reset with i := 0x2000 }.i.toNat + (0 : Fin 16).val - 1 ≤ 0xFFF) := by decide

/-- P4's two draws: the position in `V[1]`, `V[2]` and in `V[3]`, `V[4]`. -/
def drawState : State :=
  { regs [(1, 62), (2, 31), (3, 62), (4, 31)] (startAt 0x305 [0x20, 0x60, 0x20, 0x20, 0x70] []) with i := 0x305 }

theorem witness_DrawTwiceRestoresTheFramebuffer :
    ((5 : Fin 16).val = 0 ∨ drawState.i.toNat + (5 : Fin 16).val - 1 ≤ 0xFFF) ∧
    ∃ t u : State, exec (.drw 1 2 5) drawState = .next t ∧ u.fb = t.fb ∧ u.i = drawState.i ∧ u.mem = drawState.mem ∧
      u.reg 3 = drawState.reg 1 ∧ u.reg 4 = drawState.reg 2 :=
  ⟨by decide, nextOr (exec (.drw 1 2 5) drawState), nextOr (exec (.drw 1 2 5) drawState), rfl, rfl, rfl, rfl,
    by decide, by decide⟩

theorem witness_KeySkipsTestTheKeyLevel :
    (State.reset.setReg 0 15).reg 0 = 15 ∧ ((State.reset.setReg 0 15).reg 0).toNat ≤ 15 := by decide

theorem witness_ReadDelayTimer :
    let s := { startAt 0x200 [0xF0, 0x07] [] with dt := 1 }
    s.fault = none ∧ s.wait = false ∧ s.fetchWord = some (encodeXKK 0xF 0 0x07) := by decide

theorem witness_KeyWaitDeliversTheKey :
    let s := startAt 0x206 [0xF4, 0x0A] [⟨0xFFFF, 0⟩, ⟨0, 1⟩, ⟨0, 2⟩, ⟨0x0088, 3⟩]
    s.fault = none ∧ s.wait = false ∧ s.fetchWord = some (encodeXKK 0xF 4 0x0A) ∧
    s.inputs = ⟨0xFFFF, 0⟩ :: [⟨0, 1⟩, ⟨0, 2⟩] ++ [⟨0x0088, 3⟩] ∧
    (∀ inp ∈ ([⟨0, 1⟩, ⟨0, 2⟩] : List TickInput), inp.keys = 0) ∧
    (0x0088 : BitVec 16).getLsbD 3 = true ∧ (∀ j : Fin 16, j < 3 → (0x0088 : BitVec 16).getLsbD j.val = false) := by decide

theorem witness_ResetValues : (79 : Fin 80).val = 0x4F ∧ 0x50 ≤ 0x50 := by decide

theorem witness_LoaderWritesOneByteBeforeTheFirstTick :
    State.reset.loading = true ∧ 0x200 ≤ (0x200 : BitVec 12).toNat ∧ 0x200 ≤ (0xFFF : BitVec 12).toNat ∧
    (0x1FF : BitVec 12).toNat < 0x200 ∧ (after (start [])).loading = false := by decide

theorem witness_OutputPortsAreViews : { State.reset with fault := some .keyIndexFault }.fault = some .keyIndexFault := by decide

theorem witness_EveryStepKeepsTheInvariant :
    State.reset.Inv ∧ ∃ t, step { State.reset with inputs := [⟨0, 0⟩] } = .next t :=
  ⟨⟨by decide, by decide, by decide, by decide, by decide⟩, ⟨_, rfl⟩⟩

theorem witness_EveryHostMoveKeepsTheInvariant :
    State.reset.Inv ∧ (∃ t, hostMove (.load 0x200 0x60) State.reset = .next t) ∧ (∃ t, hostMove .rst State.reset = .next t) ∧
    ∃ t, hostMove (.tick ⟨0, 0⟩) State.reset = .next t :=
  ⟨⟨by decide, by decide, by decide, by decide, by decide⟩, ⟨_, rfl⟩, ⟨_, rfl⟩, ⟨_, rfl⟩⟩

theorem witness_CoreAtRestStaysAtRest :
    let s := startAt 0x216 [0x12, 0x16] []
    s.pc = addrOperand 0x216 ∧ s.fetchWord = some (encodeWord (.jp 0x216)) ∧ s.wait = false ∧ s.fault = none := by decide

end Sys2Proof.Tests
end

/-! PROOFS. What every tick does before its instruction (spec/40_execution_cycle.md R122 to R124): the inputs are latched, `CHANGED` is
cleared, the timers count, and no instruction but `LD DT` and `LD ST` touches the keys or the timers afterwards. -/

namespace Sys2Proof.Machine

/-! ## The answer of an operation that can fault, for any property of the next state -/

section Answers

variable {P : State → Prop}

/-- `P` holds of the answer of a ranged access (R72) when it holds of the access done whole and of a fault. -/
theorem withRange_answers (k : Nat) (s : State) {body : Result} (hbody : ∃ t, body = .next t ∧ P t)
    (hfault : ∀ f info, P { s with fault := some f, faultInfo := info }) :
    ∃ t, withRange k s body = .next t ∧ P t := by
  obtain ⟨-, h⟩ | h := withRange_cases k s body
  · rwa [h]
  · exact ⟨_, h, hfault _ _⟩

/-- `P` holds of the answer of a key test (R241, R267) when it holds of the test's body and of a fault. -/
theorem withKeyIndex_answers (x : Reg) (s : State) {body : Result} (hbody : ∃ t, body = .next t ∧ P t)
    (hfault : ∀ f info, P { s with fault := some f, faultInfo := info }) :
    ∃ t, withKeyIndex x s body = .next t ∧ P t := by
  obtain h | h := withKeyIndex_cases x s body
  · rwa [h]
  · exact ⟨_, h, hfault _ _⟩

/-- `P` holds of the answer of `CALL` (R153) when it holds whatever the stack, `SP` and `PC` become, and of a fault. -/
theorem execCall_answers (nnn : BitVec 12) (s : State)
    (hcall : ∀ stack sp pc, P { s with stack := stack, sp := sp, pc := pc })
    (hfault : ∀ f info, P { s with fault := some f, faultInfo := info }) :
    ∃ t, execCall nnn s = .next t ∧ P t := by
  by_cases h : s.sp.val < 16
  · exact ⟨_, execCall_room nnn s h, hcall _ _ _⟩
  · exact ⟨_, execCall_full nnn s (by omega), hfault _ _⟩

/-- `P` holds of the answer of `RET` (R151) when it holds whatever `SP` and `PC` become, and of a fault. -/
theorem execRet_answers (s : State) (hret : ∀ sp pc, P { s with sp := sp, pc := pc })
    (hfault : ∀ f info, P { s with fault := some f, faultInfo := info }) :
    ∃ t, execRet s = .next t ∧ P t := by
  by_cases h : 0 < s.sp.val
  · exact ⟨_, execRet_nonempty s h, hret _ _⟩
  · exact ⟨_, execRet_empty s (by omega), hfault _ _⟩

end Answers

/-! ## The keys and the timers after an instruction -/

/-- Every instruction answers a next state with the keys as they were, and only `LD DT` and `LD ST` write a timer (R245, R246). -/
theorem exec_keys_dt_st (i : Instr) (s : State) :
    ∃ t, exec i s = .next t ∧ t.keys = s.keys ∧
      ((∀ x, i ≠ .ldDTVx x) → t.dt = s.dt) ∧ ((∀ x, i ≠ .ldSTVx x) → t.st = s.st) := by
  cases i with
  | ret => exact execRet_answers s (fun _ _ => by simp) (fun _ _ => by simp)
  | call nnn => exact execCall_answers nnn s (fun _ _ _ => by simp) (fun _ _ => by simp)
  | drw x y n => exact withRange_answers _ s ⟨_, rfl, by simp⟩ (fun _ _ => by simp)
  | ldB x => exact withRange_answers _ s ⟨_, rfl, by simp⟩ (fun _ _ => by simp)
  | store x => exact withRange_answers _ s ⟨_, rfl, by simp⟩ (fun _ _ => by simp)
  | load x => exact withRange_answers _ s ⟨_, rfl, by simp⟩ (fun _ _ => by simp)
  | skp x => exact withKeyIndex_answers x s ⟨_, rfl, by simp⟩ (fun _ _ => by simp)
  | sknp x => exact withKeyIndex_answers x s ⟨_, rfl, by simp⟩ (fun _ _ => by simp)
  | ldDTVx x => exact ⟨_, rfl, rfl, fun h => absurd rfl (h x), fun _ => rfl⟩
  | ldSTVx x => exact ⟨_, rfl, rfl, fun _ => rfl, fun h => absurd rfl (h x)⟩
  | _ => exact ⟨_, rfl, rfl, fun _ => rfl, fun _ => rfl⟩

/-- `LD DT, Vx` (R245). -/
theorem dt_of_exec_ldDTVx {x : Reg} {s t : State} (h : exec (.ldDTVx x) s = .next t) : t.dt = s.reg x := by
  cases h; rfl

/-- `LD ST, Vx` (R246). -/
theorem st_of_exec_ldSTVx {x : Reg} {s t : State} (h : exec (.ldSTVx x) s = .next t) : t.st = s.reg x := by
  cases h; rfl

/-- `LD Vx, DT` (R243). -/
theorem reg_of_exec_ldVxDT {x : Reg} {s t : State} (h : exec (.ldVxDT x) s = .next t) : t.reg x = s.dt := by
  cases h; exact s.reg_setReg_same x s.dt

/-! ## The blocked tick -/

/-- The blocking arbiter (R123) writes a register and `WAIT`, or nothing. -/
theorem State.resolveWait_cases (s : State) :
    (∃ v, s.resolveWait = { s with v := v, wait := false }) ∨ s.resolveWait = s := by
  unfold State.resolveWait
  split
  · exact .inl ⟨_, rfl⟩
  · exact .inr rfl

@[simp] theorem State.resolveWait_keys (s : State) : s.resolveWait.keys = s.keys := by
  obtain ⟨v, h⟩ | h := s.resolveWait_cases <;> rw [h]

@[simp] theorem State.resolveWait_changed (s : State) : s.resolveWait.changed = s.changed := by
  obtain ⟨v, h⟩ | h := s.resolveWait_cases <;> rw [h]

@[simp] theorem State.resolveWait_dt (s : State) : s.resolveWait.dt = s.dt := by
  obtain ⟨v, h⟩ | h := s.resolveWait_cases <;> rw [h]

@[simp] theorem State.resolveWait_st (s : State) : s.resolveWait.st = s.st := by
  obtain ⟨v, h⟩ | h := s.resolveWait_cases <;> rw [h]

/-! ## The executing tick -/

/-- Registers are not touched before the instruction of a tick executes. -/
@[simp] theorem State.reg_atExec (s : State) (x : Reg) : s.atExec.reg x = s.reg x := rfl

end Sys2Proof.Machine

section
open Sys2Proof Sys2Proof.Machine

/-- Settles O12, by the three kinds of tick of a core that is not halted: blocked, faulting at its fetch, executing. -/
theorem everyTickLatchesKeysAndClearsChanged : Obligations.EveryTickLatchesKeysAndClearsChanged := by
  intro s hf
  cases hw : s.wait with
  | true =>
    have hstep := step_waiting s hf hw
    exact ⟨⟨_, hstep, by simp⟩, fun _ => ⟨_, hstep, by simp⟩, nofun⟩
  | false =>
    cases hfetch : s.fetchWord with
    | none =>
      have hstep := step_unfetchable s hf hw hfetch
      exact ⟨⟨_, hstep, by simp⟩, fun _ => ⟨_, hstep, by simp⟩, nofun⟩
    | some w =>
      have hstep := step_executing s w hf hw hfetch
      obtain ⟨t, hexec, hkeys, -, -⟩ := exec_keys_dt_st (decodeWord w) s.atExec
      refine ⟨⟨t, hstep.trans hexec, by simpa using hkeys⟩, nofun, fun _ w' hw' => ?_⟩
      cases hw'
      exact ⟨s.atExec, by simp, by simp, hstep⟩

/-- Settles O13, by the kinds of tick: an executing tick counts before its instruction, which writes a timer only as `LD DT` or
`LD ST`; a tick whose fetch faults has counted too; a blocked or halted tick does not count. -/
theorem timersCountExecutingTicks : Obligations.TimersCountExecutingTicks := by
  constructor
  · intro s hf hw
    cases hfetch : s.fetchWord with
    | none =>
      exact ⟨_, step_unfetchable s hf hw hfetch, fun _ => countDown_toNat s.dt, fun _ => countDown_toNat s.st,
        nofun, nofun, nofun⟩
    | some w =>
      obtain ⟨t, hexec, -, hdt, hst⟩ := exec_keys_dt_st (decodeWord w) s.atExec
      refine ⟨t, (step_executing s w hf hw hfetch).trans hexec, fun h => ?_, fun h => ?_, ?_, ?_, ?_⟩
      · rw [hdt fun x => h w x rfl]
        exact countDown_toNat s.dt
      · rw [hst fun x => h w x rfl]
        exact countDown_toNat s.st
      · rintro _ x ⟨⟩ hi
        exact (dt_of_exec_ldDTVx (hi ▸ hexec)).trans (s.reg_atExec x)
      · rintro _ x ⟨⟩ hi
        exact (st_of_exec_ldSTVx (hi ▸ hexec)).trans (s.reg_atExec x)
      · rintro _ x ⟨⟩ hi
        rw [reg_of_exec_ldVxDT (hi ▸ hexec)]
        exact countDown_toNat s.dt
  · intro s h
    by_cases hf : s.fault = none
    · exact ⟨_, step_waiting s hf (h.resolve_left (not_not.2 hf)), by simp⟩
    · exact ⟨_, step_halted s hf, rfl, rfl⟩

end

/-! PROOFS. Control flow (spec/41_control_flow.md): the skips of R154 to R157 and the jump of R152. Each completes with a directive and
writes nothing but `PC`, so each proof is the instruction's decoding, its directive's `PC`, and the one frame of `complete`. -/

namespace Sys2Proof

/-! ## The decoding of the formats (spec/30_encoding.md R94, R95) -/

theorem decodeWord_jp (nnn : BitVec 12) : decodeWord (encodeNNN 0x1 nnn) = .jp nnn := by
  simp [decodeWord]

theorem decodeWord_seImm (x : Reg) (kk : Byte) : decodeWord (encodeXKK 0x3 x kk) = .seImm x kk := by
  simp [decodeWord]

theorem decodeWord_sneImm (x : Reg) (kk : Byte) : decodeWord (encodeXKK 0x4 x kk) = .sneImm x kk := by
  simp [decodeWord]

/-- Family 5 is `SE Vx, Vy` with last nibble 0 (R156) and unrecognized with any other. -/
theorem decodeWord_family5 (x y : Reg) (n : BitVec 4) :
    decodeWord (encodeXYN 0x5 x y n) = if n = 0 then .seReg x y else .unrec (encodeXYN 0x5 x y n) := by
  simp [decodeWord]

/-- Family 9 is `SNE Vx, Vy` with last nibble 0 (R157) and unrecognized with any other. -/
theorem decodeWord_family9 (x y : Reg) (n : BitVec 4) :
    decodeWord (encodeXYN 0x9 x y n) = if n = 0 then .sneReg x y else .unrec (encodeXYN 0x9 x y n) := by
  simp [decodeWord]

namespace Machine

/-! ## An instruction that only completes -/

/-- Completing writes `PC` as the directive says (R131) and nothing else. -/
theorem complete_pc_and_frame {d : Directive} {s : State} {p : Word} (hp : d.nextPc s.pc = p) :
    ∃ t, complete d s = .next t ∧ t.pc = p ∧ t = { s with pc := t.pc } ∧ sameMemory s t :=
  ⟨_, complete_next d s, hp, rfl, fun _ => rfl⟩

/-- `PC` after a skip instruction (R131). -/
theorem nextPc_skipIf (b : Bool) (pc : Word) : (skipIf b).nextPc pc = if b = true then pc + 4 else pc + 2 := by
  cases b <;> rfl

/-- `PC` after a skip whose condition is equality (R154, R156). -/
theorem nextPc_skipIf_beq (a b : Byte) (pc : Word) :
    (skipIf (a == b)).nextPc pc = if a = b then pc + 4 else pc + 2 := by
  simp only [nextPc_skipIf, beq_iff_eq]

/-- `PC` after a skip whose condition is difference (R155, R157). -/
theorem nextPc_skipIf_bne (a b : Byte) (pc : Word) :
    (skipIf (a != b)).nextPc pc = if a = b then pc + 2 else pc + 4 := by
  simp only [nextPc_skipIf, bne_iff_ne, ite_not]

/-! ## Where a fetch is impossible -/

theorem State.fetchWord_eq_none_iff (s : State) : s.fetchWord = none ↔ 0xFFE < s.pc.toNat := by
  by_cases h : s.pc.toNat ≤ 0xFFE
  · simp [s.fetchWord_some h, h]
  · simpa [s.fetchWord_none h] using h

/-- Of the 12-bit addresses only 0xFFF lies above the last fetchable one (R64, R152). -/
theorem addrOperand_unfetchable_iff (nnn : BitVec 12) : 0xFFE < (addrOperand nnn).toNat ↔ nnn = 0xFFF := by
  rw [addrOperand_toNat]
  bv_omega

end Machine

end Sys2Proof

section
open Sys2Proof Sys2Proof.Machine

/-- Settles O26: each of the four skips completes, its condition chooses the directive; families 5 and 9 test the last nibble. -/
theorem registerSkipsTestTheirCondition : Obligations.RegisterSkipsTestTheirCondition := by
  intro x y kk s
  refine ⟨⟨decodeWord_seImm x kk, ?seImm⟩, ⟨decodeWord_sneImm x kk, ?sneImm⟩,
    ⟨decodeWord_family5 x y 0, ?seReg⟩, ⟨decodeWord_family9 x y 0, ?sneReg⟩, fun n hn => ⟨?unrec5, ?unrec9⟩⟩
  case seImm => exact complete_pc_and_frame (nextPc_skipIf_beq (s.reg x) kk s.pc)
  case sneImm => exact complete_pc_and_frame (nextPc_skipIf_bne (s.reg x) kk s.pc)
  case seReg => exact complete_pc_and_frame (nextPc_skipIf_beq (s.reg x) (s.reg y) s.pc)
  case sneReg => exact complete_pc_and_frame (nextPc_skipIf_bne (s.reg x) (s.reg y) s.pc)
  case unrec5 => rw [decodeWord_family5, if_neg hn]
  case unrec9 => rw [decodeWord_family9, if_neg hn]

/-- Settles O21: the jump completes at its target, from which a fetch is impossible only at 0xFFF; there the next tick of a core
neither halted nor waiting is the one whose fetch faults. -/
theorem jumpSetsTheCounter : Obligations.JumpSetsTheCounter := by
  intro nnn s
  obtain ⟨t, hexec, hpc, hframe, hmem⟩ :=
    complete_pc_and_frame (d := .jumpTo (addrOperand nnn)) (s := s) (p := addrOperand nnn) rfl
  have hfetch : t.fetchWord = none ↔ nnn = 0xFFF := by
    rw [t.fetchWord_eq_none_iff, hpc]
    exact addrOperand_unfetchable_iff nnn
  refine ⟨decodeWord_jp nnn, t, hexec, by rw [hpc, addrOperand_toNat], hframe, hmem, hfetch, fun hn hf hw => ?_⟩
  have hstep : step t = raise .fetchFault t.pc t.atExec :=
    step_unfetchable t (by rw [hframe]; exact hf) (by rw [hframe]; exact hw) (hfetch.2 hn)
  refine ⟨_, hstep.trans (raise_next _ _ _), rfl, ?_⟩
  change t.pc = 0xFFF
  rw [hpc, hn]
  rfl

end

/-! PROOFS. The register writers without a flag (spec/42_alu.md): the immediate forms of R171 and R172, copy and logic of R173 to R176.
Each writes its destination and completes, so each proof is the instruction's decoding, the value it writes, and the one frame of such
a write. -/

namespace Sys2Proof

/-! ## The decoding of families 6, 7 and 8 (spec/30_encoding.md R94, R95) -/

theorem decodeWord_ldImm (x : Reg) (kk : Byte) : decodeWord (encodeXKK 0x6 x kk) = .ldImm x kk := by
  simp [decodeWord]

theorem decodeWord_addImm (x : Reg) (kk : Byte) : decodeWord (encodeXKK 0x7 x kk) = .addImm x kk := by
  simp [decodeWord]

theorem decodeWord_ldReg (x y : Reg) : decodeWord (encodeXYN 0x8 x y 0x0) = .ldReg x y := by
  simp [decodeWord, decode8]

theorem decodeWord_orReg (x y : Reg) : decodeWord (encodeXYN 0x8 x y 0x1) = .orReg x y := by
  simp [decodeWord, decode8]

theorem decodeWord_andReg (x y : Reg) : decodeWord (encodeXYN 0x8 x y 0x2) = .andReg x y := by
  simp [decodeWord, decode8]

theorem decodeWord_xorReg (x y : Reg) : decodeWord (encodeXYN 0x8 x y 0x3) = .xorReg x y := by
  simp [decodeWord, decode8]

namespace Machine

/-! ## An instruction that writes one register and completes -/

/-- Such an instruction leaves its value in `V[x]`, keeps every other register (`VF` too, unless it is `V[x]`), advances `PC` by 2
and changes nothing else, whatever `x` is (R21, R131). -/
theorem complete_setReg_frame (x : Reg) (b : Byte) (s : State) :
    ∃ t, complete .advance (s.setReg x b) = .next t ∧ t.reg x = b ∧ otherRegs [x] s t ∧ onlyRegs s t := by
  refine ⟨_, complete_next _ _, ?value, fun r hr => ?others, rfl, fun _ => rfl⟩
  case value => rw [State.reg_withPc, State.reg_setReg_same]
  case others => rw [State.reg_withPc, State.reg_setReg_other s b (List.ne_of_not_mem_cons hr)]

end Machine

end Sys2Proof

section
open Sys2Proof Sys2Proof.Machine

/-- Settles O28: both forms write one register and complete; the sum is the one of bytes, which is modulo 256. -/
theorem immediateFormsWriteTheirRegister : Obligations.ImmediateFormsWriteTheirRegister := by
  intro x kk s
  refine ⟨⟨decodeWord_ldImm x kk, complete_setReg_frame x kk s⟩, decodeWord_addImm x kk, ?addImm⟩
  case addImm =>
    obtain ⟨t, hexec, hvalue, hframe⟩ := complete_setReg_frame x (s.reg x + kk) s
    exact ⟨t, hexec, by rw [hvalue, BitVec.toNat_add], hframe⟩

/-- Settles O29: the four write one register and complete; the value of OR, AND and XOR is read bit by bit. -/
theorem copyAndLogicWriteNoFlag : Obligations.CopyAndLogicWriteNoFlag := by
  intro x y s
  refine ⟨⟨decodeWord_ldReg x y, complete_setReg_frame x (s.reg y) s⟩, ⟨decodeWord_orReg x y, ?orReg⟩,
    ⟨decodeWord_andReg x y, ?andReg⟩, decodeWord_xorReg x y, ?xorReg⟩
  case orReg =>
    obtain ⟨t, hexec, hvalue, hframe⟩ := complete_setReg_frame x (s.reg x ||| s.reg y) s
    exact ⟨t, hexec, fun k _ => by rw [hvalue, BitVec.getLsbD_or], hframe⟩
  case andReg =>
    obtain ⟨t, hexec, hvalue, hframe⟩ := complete_setReg_frame x (s.reg x &&& s.reg y) s
    exact ⟨t, hexec, fun k _ => by rw [hvalue, BitVec.getLsbD_and], hframe⟩
  case xorReg =>
    obtain ⟨t, hexec, hvalue, hframe⟩ := complete_setReg_frame x (s.reg x ^^^ s.reg y) s
    exact ⟨t, hexec, fun k _ => by rw [hvalue, BitVec.getLsbD_xor], hframe⟩

end

/-! PROOFS. The loads of the index register (spec/43_index_and_memory.md). `LD I, nnn` (R201) writes `I` and completes, so its proof is
the instruction's decoding, the value it writes, and the one frame of such a write. -/

namespace Sys2Proof

theorem decodeWord_ldI (nnn : BitVec 12) : decodeWord (encodeNNN 0xA nnn) = .ldI nnn := by
  simp [decodeWord]

namespace Machine

/-- An instruction that writes `I` and completes leaves its value there, advances `PC` by 2 and changes nothing else (R131). -/
theorem complete_setIndex_frame (a : Word) (s : State) :
    ∃ t, complete .advance { s with i := a } = .next t ∧ t.i = a ∧ t = { s with i := t.i, pc := s.pc + 2 } ∧
      sameMemory s t :=
  ⟨_, complete_next _ _, rfl, rfl, fun _ => rfl⟩

end Machine

end Sys2Proof

section
open Sys2Proof Sys2Proof.Machine

/-- Settles O34: the load writes `I` and completes; the operand's zero extension keeps its value. -/
theorem loadIndexZeroExtends : Obligations.LoadIndexZeroExtends := by
  intro nnn s
  obtain ⟨t, hexec, hvalue, hframe⟩ := complete_setIndex_frame (addrOperand nnn) s
  exact ⟨decodeWord_ldI nnn, t, hexec, by rw [hvalue, addrOperand_toNat], hframe⟩

end

/-! PROOFS. Display (spec/44_display.md): the clearing of the screen (R221). -/

namespace Sys2Proof

theorem decodeWord_cls : decodeWord 0x00E0 = .cls := by decide

namespace Machine

/-- `CLS` (R221): the blank framebuffer, `CHANGED` and the advanced `PC` (R131) are the whole of what it writes. -/
theorem exec_cls (s : State) :
    exec .cls s = .next { s with fb := Framebuffer.blank, changed := true, pc := s.pc + 2 } :=
  complete_next .advance _

end Machine

end Sys2Proof

section
open Sys2Proof Sys2Proof.Machine

/-- Settles O41, by the next state of `CLS`, whose framebuffer is blank and whose other fields are the old ones. -/
theorem clearScreenBlanksAndMarks : Obligations.ClearScreenBlanksAndMarks := by
  intro s
  exact ⟨decodeWord_cls, _, exec_cls s, Framebuffer.pixel_blank, rfl, rfl, fun _ => rfl⟩

end

/-! PROOFS. The decoder and the encoder (spec/30_encoding.md). Encoding undoes decoding because a word is its format's fields. Every
question about the table of R94 then rests on one fact: a word that selects a row decodes to an instruction of that row. -/

namespace Sys2Proof

open Laws.EncodedByRow

/-! ## Encoding a decoded word (R94, R102) -/

/-- `decodeWord` ends with family F: the only first nibble left when no other fits. -/
theorem eq_F_of_ne_lower {op : BitVec 4} (h0 : op ≠ 0x0) (h1 : op ≠ 0x1) (h2 : op ≠ 0x2) (h3 : op ≠ 0x3) (h4 : op ≠ 0x4)
    (h5 : op ≠ 0x5) (h6 : op ≠ 0x6) (h7 : op ≠ 0x7) (h8 : op ≠ 0x8) (h9 : op ≠ 0x9) (hA : op ≠ 0xA) (hB : op ≠ 0xB)
    (hC : op ≠ 0xC) (hD : op ≠ 0xD) (hE : op ≠ 0xE) : op = 0xF := by
  bv_omega

theorem encodeWord_decode0 (w : Word) : encodeWord (decode0 w) = w := by
  unfold decode0
  split
  · exact .symm ‹_›
  · split
    · exact .symm ‹_›
    · rfl

theorem encodeWord_decode8 {w : Word} (hop : opField w = 0x8) : encodeWord (decode8 w) = w := by
  have hw := encodeXYN_fields w
  unfold decode8
  split <;> simp_all [encodeWord]

theorem encodeWord_decodeE {w : Word} (hop : opField w = 0xE) : encodeWord (decodeE w) = w := by
  have hw := encodeXKK_fields w
  unfold decodeE
  split <;> simp_all [encodeWord]

theorem encodeWord_decodeF {w : Word} (hop : opField w = 0xF) : encodeWord (decodeF w) = w := by
  have hw := encodeXKK_fields w
  unfold decodeF
  split <;> simp_all [encodeWord]

/-- Decoding loses no bit (R102). -/
theorem encodeWord_decodeWord (w : Word) : encodeWord (decodeWord w) = w := by
  have hNNN := encodeNNN_fields w
  have hXKK := encodeXKK_fields w
  have hXYN := encodeXYN_fields w
  unfold decodeWord
  split
  case h_1 => exact encodeWord_decode0 w
  case h_6 hop =>
    split
    case isTrue hn => simpa [encodeWord, hop, hn] using hXYN
    case isFalse => rfl
  case h_9 hop => exact encodeWord_decode8 hop
  case h_10 hop =>
    split
    case isTrue hn => simpa [encodeWord, hop, hn] using hXYN
    case isFalse => rfl
  case h_14 hop => simpa [encodeWord, hop, nField] using hXYN
  case h_15 hop => exact encodeWord_decodeE hop
  case h_16 => exact encodeWord_decodeF (by apply eq_F_of_ne_lower <;> assumption)
  all_goals simp_all [encodeWord]

theorem eq_of_decodeWord_eq_unrec {w w' : Word} (h : decodeWord w = .unrec w') : w' = w := by
  simpa [h, encodeWord] using encodeWord_decodeWord w

/-! ## The unrecognized words of a family (R101) -/

theorem decode0_eq_unrec_iff (w : Word) : decode0 w = .unrec w ↔ w ≠ 0x00E0 ∧ w ≠ 0x00EE := by
  unfold decode0
  split <;> simp_all

theorem nField_eq_zero_iff (w : Word) : nField w = 0 ↔ nBits w = 0 :=
  (BitVec.toFin_inj (x := nBits w) (y := 0))

/-- The last nibbles without an instruction of family 8, as a count and as bits. -/
theorem toFin_mem_iff_not_mem : ∀ n : BitVec 4, n.toFin ∈ ([8, 9, 0xA, 0xB, 0xC, 0xD, 0xF] : List (Fin 16)) ↔
    n ∉ ([0x0, 0x1, 0x2, 0x3, 0x4, 0x5, 0x6, 0x7, 0xE] : List (BitVec 4)) := by decide

theorem decode8_eq_unrec_iff (w : Word) :
    decode8 w = .unrec w ↔ nField w ∈ ([8, 9, 0xA, 0xB, 0xC, 0xD, 0xF] : List (Fin 16)) := by
  rw [nField, toFin_mem_iff_not_mem]
  unfold decode8
  split <;> simp_all

theorem decodeE_eq_unrec_iff (w : Word) : decodeE w = .unrec w ↔ kkField w ∉ ([0x9E, 0xA1] : List Byte) := by
  unfold decodeE
  split <;> simp_all

theorem decodeF_eq_unrec_iff (w : Word) :
    decodeF w = .unrec w ↔
      kkField w ∉ ([0x07, 0x0A, 0x15, 0x18, 0x1E, 0x29, 0x33, 0x55, 0x65] : List Byte) := by
  unfold decodeF
  split <;> simp_all

/-! ## The fields a mask of R94 keeps -/

theorem opField_of_and_F000 {w bits : Word} (h : w &&& 0xF000 = bits) : opField w = opField bits := by
  rw [← encodeNNN_fields w, and_NNN] at h
  rw [← h, ← encodeNNN_fields w, opField_encodeNNN]
  exact (opField_encodeNNN _ 0).symm

theorem fields_of_and_F00F {w bits : Word} (h : w &&& 0xF00F = bits) :
    opField w = opField bits ∧ nBits w = nBits bits := by
  rw [← encodeXYN_fields w, and_XYS] at h
  exact h ▸ ⟨(opField_ofNibbles _ _ _ _).symm, (nBits_ofNibbles _ _ _ _).symm⟩

theorem fields_of_and_F0FF {w bits : Word} (h : w &&& 0xF0FF = bits) :
    opField w = opField bits ∧ kkField w = kkField bits := by
  rw [← encodeXKK_fields w, and_XSS] at h
  exact h ▸ ⟨(opField_encodeXKK _ 0 _).symm, (kkField_encodeXKK _ 0 _).symm⟩

/-! ## The fields that give a decoded word's row -/

/-- In ten families the first nibble alone. -/
theorem row_decodeWord_of_opField {w b : Word} (hop : opField w = opField b)
    (hb : opField b ∈ ([0x1, 0x2, 0x3, 0x4, 0x6, 0x7, 0xA, 0xB, 0xC, 0xD] : List (BitVec 4))) :
    (decodeWord w).row = (decodeWord b).row := by
  simp only [List.mem_cons, List.not_mem_nil, or_false] at hb
  rcases hb with h | h | h | h | h | h | h | h | h | h <;> simp [decodeWord, hop, h, Instr.row]

theorem row_decode8_of_nBits {w b : Word} (hn : nBits w = nBits b) : (decode8 w).row = (decode8 b).row := by
  unfold decode8
  rw [hn]
  split <;> rfl

theorem row_decodeE_of_kkField {w b : Word} (hkk : kkField w = kkField b) : (decodeE w).row = (decodeE b).row := by
  unfold decodeE
  rw [hkk]
  split <;> rfl

theorem row_decodeF_of_kkField {w b : Word} (hkk : kkField w = kkField b) : (decodeF w).row = (decodeF b).row := by
  unfold decodeF
  rw [hkk]
  split <;> rfl

/-- In families 5, 8 and 9 the first and the last nibble. -/
theorem row_decodeWord_of_nBits {w b : Word} (hop : opField w = opField b) (hn : nBits w = nBits b)
    (hb : opField b ∈ ([0x5, 0x8, 0x9] : List (BitVec 4))) : (decodeWord w).row = (decodeWord b).row := by
  simp only [List.mem_cons, List.not_mem_nil, or_false] at hb
  rcases hb with h | h | h
  · by_cases h0 : nBits b = 0#4 <;> simp [decodeWord, hop, h, hn, h0, Instr.row]
  · simpa [decodeWord, hop, h] using row_decode8_of_nBits hn
  · by_cases h0 : nBits b = 0#4 <;> simp [decodeWord, hop, h, hn, h0, Instr.row]

/-- In families E and F the first nibble and the low byte. -/
theorem row_decodeWord_of_kkField {w b : Word} (hop : opField w = opField b) (hkk : kkField w = kkField b)
    (hb : opField b ∈ ([0xE, 0xF] : List (BitVec 4))) : (decodeWord w).row = (decodeWord b).row := by
  simp only [List.mem_cons, List.not_mem_nil, or_false] at hb
  rcases hb with h | h
  · simpa [decodeWord, hop, h] using row_decodeE_of_kkField hkk
  · simpa [decodeWord, hop, h] using row_decodeF_of_kkField hkk

/-! ## The table and the decoder -/

/-- The masks of R94, each with the families it serves. -/
theorem mask_of_mem_patterns : ∀ p ∈ patterns,
    p.mask = 0xFFFF ∨
    p.mask = 0xF000 ∧ opField p.bits ∈ ([0x1, 0x2, 0x3, 0x4, 0x6, 0x7, 0xA, 0xB, 0xC, 0xD] : List (BitVec 4)) ∨
    p.mask = 0xF00F ∧ opField p.bits ∈ ([0x5, 0x8, 0x9] : List (BitVec 4)) ∨
    p.mask = 0xF0FF ∧ opField p.bits ∈ ([0xE, 0xF] : List (BitVec 4)) := by decide

/-- The word that holds a row's fixed bits and zeros decodes to an instruction of the row. -/
theorem row_decodeWord_bits : ∀ p ∈ patterns, (decodeWord p.bits).row = p := by decide

/-- A word that selects a row of R94 decodes to an instruction of that row: it has the row's fields where the mask looks. -/
theorem row_decodeWord_of_selects {w : Word} {p : Pattern} (hp : p ∈ patterns) (h : p.selects w = true) :
    (decodeWord w).row = p := by
  have hbits : w &&& p.mask = p.bits := beq_iff_eq.1 h
  rw [← row_decodeWord_bits p hp]
  obtain hm | ⟨hm, hop⟩ | ⟨hm, hop⟩ | ⟨hm, hop⟩ := mask_of_mem_patterns p hp <;> rw [hm] at hbits
  · have hw : w = p.bits := BitVec.and_allOnes.symm.trans hbits
    rw [hw]
  · exact row_decodeWord_of_opField (opField_of_and_F000 hbits) hop
  · exact row_decodeWord_of_nBits (fields_of_and_F00F hbits).1 (fields_of_and_F00F hbits).2 hop
  · exact row_decodeWord_of_kkField (fields_of_and_F0FF hbits).1 (fields_of_and_F0FF hbits).2 hop

theorem row_unrec_not_mem (w : Word) : (Instr.unrec w).row ∉ patterns := by
  change (⟨0, 0⟩ : Pattern) ∉ patterns
  decide

theorem row_mem_patterns {i : Instr} (h : ∀ w, i ≠ .unrec w) : i.row ∈ patterns := by
  cases i with
  | unrec w => exact absurd rfl (h w)
  | _ => simp [Instr.row, patterns, patternsLow, patternsHigh]

/-- Every instruction's word selects its row (`Laws.EncodedByRow`, constructor by constructor). -/
theorem encodeWord_and_row_mask (i : Instr) : encodeWord i &&& i.row.mask = i.row.bits := by
  cases i with
  | cls => exact cls
  | ret => exact ret
  | jp nnn => exact jp nnn
  | call nnn => exact call nnn
  | seImm x kk => exact seImm x kk
  | sneImm x kk => exact sneImm x kk
  | seReg x y => exact seReg x y
  | sneReg x y => exact sneReg x y
  | ldImm x kk => exact ldImm x kk
  | addImm x kk => exact addImm x kk
  | ldReg x y => exact ldReg x y
  | orReg x y => exact orReg x y
  | andReg x y => exact andReg x y
  | xorReg x y => exact xorReg x y
  | addReg x y => exact addReg x y
  | subReg x y => exact subReg x y
  | subnReg x y => exact subnReg x y
  | shr x y => exact shr x y
  | shl x y => exact shl x y
  | ldI nnn => exact ldI nnn
  | jpV0 nnn => exact jpV0 nnn
  | rnd x kk => exact rnd x kk
  | drw x y n => exact drw x y n
  | skp x => exact skp x
  | sknp x => exact sknp x
  | ldVxDT x => exact ldVxDT x
  | ldVxK x => exact ldVxK x
  | ldDTVx x => exact ldDTVx x
  | ldSTVx x => exact ldSTVx x
  | addI x => exact addI x
  | ldF x => exact ldF x
  | ldB x => exact ldB x
  | store x => exact store x
  | load x => exact load x
  | unrec w => exact unrec w

/-- A word decodes to the unrecognized instruction exactly when it selects no row (R100, R102). -/
theorem decodeWord_eq_unrec_iff (w : Word) : decodeWord w = .unrec w ↔ ∀ p ∈ patterns, p.selects w = false := by
  constructor
  · intro hw p hp
    refine Bool.eq_false_iff.2 fun hsel => row_unrec_not_mem w ?_
    rwa [← hw, row_decodeWord_of_selects hp hsel]
  · intro hnone
    by_contra hne
    have hrow : (decodeWord w).row ∈ patterns := row_mem_patterns fun w' hw' =>
      hne (eq_of_decodeWord_eq_unrec hw' ▸ hw')
    have hbits := encodeWord_and_row_mask (decodeWord w)
    rw [encodeWord_decodeWord] at hbits
    exact Bool.false_ne_true ((hnone _ hrow).symm.trans (beq_iff_eq.2 hbits))

theorem wellFormed_iff (i : Instr) : i.wellFormed = true ↔ ∀ w, i = .unrec w → decodeWord w = .unrec w := by
  cases i with
  | unrec w => simp [Instr.wellFormed, recognized, decodeWord_eq_unrec_iff]
  | _ => simp [Instr.wellFormed]

theorem wellFormed_decodeWord (w : Word) : (decodeWord w).wellFormed = true :=
  (wellFormed_iff _).2 fun _ hw => eq_of_decodeWord_eq_unrec hw ▸ hw

/-- Encoding loses nothing of a well-formed instruction (R94; decision D11). -/
theorem decodeWord_encodeWord {i : Instr} (h : i.wellFormed = true) : decodeWord (encodeWord i) = i := by
  cases i with
  | cls => exact decodeWord_cls
  | ret => decide
  | unrec w => exact (wellFormed_iff _).1 h w rfl
  | _ => simp [encodeWord, decodeWord, decode8, decodeE, decodeF]

end Sys2Proof

section
open Sys2Proof

/-- Settles O2: the two bytes are the word's, and decoding undoes encoding on well-formed instructions. -/
theorem encodeThenDecodeIsIdentity : Obligations.EncodeThenDecodeIsIdentity := by
  intro i rest h
  rw [decode_encode_bytes, decodeWord_encodeWord h]

/-- Settles O3, by the words an unrecognized instruction can hold and by the formats' fields. -/
theorem decodeThenEncodeIsIdentity : Obligations.DecodeThenEncodeIsIdentity :=
  fun w => ⟨wellFormed_decodeWord w, encodeWord_decodeWord w⟩

/-- Settles O4: two rows that a word selects are both the row of the instruction it decodes to. -/
theorem tableRowsDisjointAndExhaustive : Obligations.TableRowsDisjointAndExhaustive := by
  intro w
  refine ⟨fun p hp q hq hpw hqw => ?_, (decodeWord_eq_unrec_iff w).symm⟩
  rw [← row_decodeWord_of_selects hp hpw, ← row_decodeWord_of_selects hq hqw]

/-- Settles O5, family by family: each set is where the family's own decoder answers the unrecognized instruction. -/
theorem unrecognizedWordsByFamily : Obligations.UnrecognizedWordsByFamily := by
  intro w
  have hn := nField_eq_zero_iff w
  rw [← decode0_eq_unrec_iff, ← decode8_eq_unrec_iff, ← decodeE_eq_unrec_iff, ← decodeF_eq_unrec_iff]
  unfold decodeWord
  split
  case h_16 =>
    have hop : opField w = 0xF := by apply eq_F_of_ne_lower <;> assumption
    simp [hop]
  all_goals simp_all

/-- Settles O1, by evaluating the decoder on the eight words. -/
theorem sampleWordsDecode : Obligations.SampleWordsDecode := by
  unfold Obligations.SampleWordsDecode
  decide

end

/-! PROOFS. What every instruction does, said once (spec/40_execution_cycle.md R127, R131; spec/60_exceptions.md R261, R266): it latches
the fault of the table and nothing else, or it writes its own state and then `PC`. -/

namespace Sys2Proof.Machine

/-! ## The table of faults and the operations that test for one -/

theorem memFaultOf_eq_none_iff (k : Nat) (s : State) : memFaultOf k s = none ↔ k = 0 ∨ s.i.toNat + k ≤ 0x1000 := by
  unfold memFaultOf
  split
  · simp only [reduceCtorEq, false_iff]; omega
  · simp only [true_iff]; omega

theorem keyFaultOf_eq_none_iff (x : Reg) (s : State) : keyFaultOf x s = none ↔ (s.reg x).toNat ≤ 15 := by
  unfold keyFaultOf
  split <;> simp only [reduceCtorEq, false_iff, true_iff] <;> omega

theorem withRange_of_noFault {k : Nat} {s : State} (body : Result) (h : memFaultOf k s = none) :
    withRange k s body = body :=
  withRange_inRange k s body ((memFaultOf_eq_none_iff k s).1 h)

theorem withRange_of_fault {k : Nat} {s : State} (body : Result) {f : FaultKind} {info : Word}
    (h : memFaultOf k s = some (f, info)) : withRange k s body = raise f info s := by
  have hout : ¬(k = 0 ∨ s.i.toNat + k ≤ 0x1000) := fun hin => by simp [(memFaultOf_eq_none_iff k s).2 hin] at h
  rw [withRange_outOfRange k s body hout]
  unfold memFaultOf at h
  rw [if_pos (by omega)] at h
  cases h
  by_cases hi : s.i.toNat < 0x1000
  · rw [if_pos hi, if_neg (by omega)]
  · rw [if_neg hi, if_pos (by omega)]

theorem withKeyIndex_of_noFault {x : Reg} {s : State} (body : Result) (h : keyFaultOf x s = none) :
    withKeyIndex x s body = body :=
  withKeyIndex_isKey x s body ((keyFaultOf_eq_none_iff x s).1 h)

theorem withKeyIndex_of_fault {x : Reg} {s : State} (body : Result) {f : FaultKind} {info : Word}
    (h : keyFaultOf x s = some (f, info)) : withKeyIndex x s body = raise f info s := by
  have hout : ¬(s.reg x).toNat ≤ 15 := fun hin => by simp [(keyFaultOf_eq_none_iff x s).2 hin] at h
  rw [withKeyIndex_notKey x s body hout]
  unfold keyFaultOf at h
  rw [if_pos (by omega)] at h
  cases h
  rfl

theorem faultOf_call (nnn : BitVec 12) (s : State) :
    faultOf (.call nnn) s = if s.sp = 16 then some (.stackOverflow, s.pc) else none := rfl

theorem faultOf_ret (s : State) : faultOf .ret s = if s.sp = 0 then some (.stackUnderflow, s.pc) else none := rfl

theorem faultOf_call_eq_none_iff (nnn : BitVec 12) (s : State) : faultOf (.call nnn) s = none ↔ s.sp.val < 16 := by
  rw [faultOf_call]
  split <;> simp only [reduceCtorEq, false_iff, true_iff] <;> omega

theorem faultOf_ret_eq_none_iff (s : State) : faultOf .ret s = none ↔ 0 < s.sp.val := by
  rw [faultOf_ret]
  split <;> simp only [reduceCtorEq, false_iff, true_iff] <;> omega

/-! ## The effect of an instruction -/

/-- What an instruction that raises no fault leaves, but for `PC`. -/
def effect (i : Instr) (s : State) : State :=
  match i with
  | .cls => { s with fb := Framebuffer.blank, changed := true }
  | .ret => { s with sp := s.sp - 1 }
  | .call _ => { s with stack := s.stack.setIfInBounds s.sp.val (s.pc + 2), sp := s.sp + 1 }
  | .ldImm x kk => s.setReg x kk
  | .addImm x kk => s.setReg x (s.reg x + kk)
  | .ldReg x y => s.setReg x (s.reg y)
  | .orReg x y => s.setReg x (s.reg x ||| s.reg y)
  | .andReg x y => s.setReg x (s.reg x &&& s.reg y)
  | .xorReg x y => s.setReg x (s.reg x ^^^ s.reg y)
  | .addReg x y => s.setFlagThenReg (carryFlag (s.reg x) (s.reg y)) x (s.reg x + s.reg y)
  | .subReg x y => s.setFlagThenReg (greaterFlag (s.reg x) (s.reg y)) x (s.reg x - s.reg y)
  | .subnReg x y => s.setFlagThenReg (greaterFlag (s.reg y) (s.reg x)) x (s.reg y - s.reg x)
  | .shr x y =>
    s.setFlagThenReg (lowBitFlag (s.shiftSource Config.shiftSrc x y)) x (s.shiftSource Config.shiftSrc x y >>> 1)
  | .shl x y =>
    s.setFlagThenReg (highBitFlag (s.shiftSource Config.shiftSrc x y)) x (s.shiftSource Config.shiftSrc x y <<< 1)
  | .ldI nnn => { s with i := addrOperand nnn }
  | .rnd x kk => s.setReg x (s.rnd &&& kk)
  | .drw x y n =>
    { s with fb := (drawBytes (s.reg x) (s.reg y) 0 (s.spriteBytes n.val) (s.fb, false)).1, changed := true }.setReg VF
      (Byte.ofFlag (drawBytes (s.reg x) (s.reg y) 0 (s.spriteBytes n.val) (s.fb, false)).2)
  | .ldVxDT x => s.setReg x s.dt
  | .ldVxK x => { s with wait := true, waitReg := x }
  | .ldDTVx x => { s with dt := s.reg x }
  | .ldSTVx x => { s with st := s.reg x }
  | .addI x =>
    { s with i := s.i + zextByte (s.reg x) }.setReg VF (Byte.ofFlag (indexFlag (s.i + zextByte (s.reg x))))
  | .ldF x => { s with i := zextByte (s.reg x) * BitVec.ofNat 16 Config.glyphBytes }
  | .ldB x => s.storeAtI (bcdDigits (s.reg x))
  | .store x => s.storeAtI (s.regsUpTo x)
  | .load x => s.loadRegs x
  | .jp _ | .jpV0 _ | .seImm _ _ | .sneImm _ _ | .seReg _ _ | .sneReg _ _ | .skp _ | .sknp _ | .unrec _ => s

theorem complete_of_nextPc {d : Directive} {s : State} {p : Word} (h : d.nextPc s.pc = p) :
    complete d s = .next { s with pc := p } := by
  rw [complete_next, h]

/-- `RET` with an address stacked has its effect (R151). -/
theorem exec_ret_of_noFault {s : State} (h : 0 < s.sp.val) :
    exec .ret s = .next { effect .ret s with pc := pcAfter .ret s } := by
  have hsp : (⟨s.sp.val - 1, by omega⟩ : Fin 17) = s.sp - 1 := by ext; dsimp only; omega
  have hpc : s.stack[s.sp.val - 1] = (s.stack[s.sp.val - 1]?).getD 0 := by rw [getElem?_pos]; rfl
  rw [exec, execRet_nonempty s h, hsp, hpc]
  rfl

/-- `CALL` with room on the stack has its effect (R153). -/
theorem exec_call_of_noFault (nnn : BitVec 12) {s : State} (h : s.sp.val < 16) :
    exec (.call nnn) s = .next { effect (.call nnn) s with pc := pcAfter (.call nnn) s } := by
  have hsp : (⟨s.sp.val + 1, Nat.succ_lt_succ h⟩ : Fin 17) = s.sp + 1 := by ext; dsimp only; omega
  have hstack : s.stack.set s.sp.val (s.pc + 2) h = s.stack.setIfInBounds s.sp.val (s.pc + 2) := by
    ext k hk
    simp [Vector.getElem_set, Vector.getElem_setIfInBounds]
  rw [exec, execCall_room nnn s h, hsp, hstack]
  rfl

/-- `LD Vx, [I]` in range loads and completes (R206). -/
theorem exec_load_inRange {x : Reg} {s : State} (h : s.i.toNat + (x.val + 1) ≤ 0x1000) :
    exec (.load x) s = .next { s.loadRegs x with pc := s.pc + 2 } := by
  rw [exec, execLoad, withRange_inRange _ s _ (.inr h), complete_next, Directive.nextPc, State.loadRegs_pc]

/-- An instruction to which the table of R261 gives no fault has its effect, and then its directive's `PC` (R131). -/
theorem exec_of_noFault {i : Instr} {s : State} (h : faultOf i s = none) :
    exec i s = .next { effect i s with pc := pcAfter i s } := by
  cases i with
  | ret => exact exec_ret_of_noFault ((faultOf_ret_eq_none_iff s).1 h)
  | call nnn => exact exec_call_of_noFault nnn ((faultOf_call_eq_none_iff nnn s).1 h)
  | seImm x kk => exact complete_of_nextPc (nextPc_skipIf_beq (s.reg x) kk s.pc)
  | sneImm x kk => exact complete_of_nextPc ((nextPc_skipIf_bne (s.reg x) kk s.pc).trans (ite_not ..).symm)
  | seReg x y => exact complete_of_nextPc (nextPc_skipIf_beq (s.reg x) (s.reg y) s.pc)
  | sneReg x y => exact complete_of_nextPc ((nextPc_skipIf_bne (s.reg x) (s.reg y) s.pc).trans (ite_not ..).symm)
  | drw x y n => exact withRange_of_noFault _ h
  | ldB x => exact withRange_of_noFault _ h
  | store x => exact withRange_of_noFault _ h
  | load x => exact exec_load_inRange (((memFaultOf_eq_none_iff _ s).1 h).resolve_left x.val.succ_ne_zero)
  | skp x => exact (withKeyIndex_of_noFault _ h).trans (complete_of_nextPc (nextPc_skipIf _ s.pc))
  | sknp x =>
    refine (withKeyIndex_of_noFault _ h).trans (complete_of_nextPc ((nextPc_skipIf _ s.pc).trans ?_))
    simp only [Bool.not_eq_true']
    rfl
  | _ => rfl

/-- An instruction to which the table gives a fault latches it and does nothing else (R12, R266). -/
theorem exec_of_fault {i : Instr} {s : State} {k : FaultKind} {info : Word} (h : faultOf i s = some (k, info)) :
    exec i s = .next { s with fault := some k, faultInfo := info } := by
  cases i with
  | call nnn =>
    rw [faultOf_call] at h
    split at h
    case isTrue hsp => cases h; exact execCall_full nnn s (congrArg Fin.val hsp)
    case isFalse => cases h
  | ret =>
    rw [faultOf_ret] at h
    split at h
    case isTrue hsp => cases h; exact execRet_empty s (congrArg Fin.val hsp)
    case isFalse => cases h
  | drw x y n => exact withRange_of_fault _ h
  | ldB x => exact withRange_of_fault _ h
  | store x => exact withRange_of_fault _ h
  | load x => exact withRange_of_fault _ h
  | skp x => exact withKeyIndex_of_fault _ h
  | sknp x => exact withKeyIndex_of_fault _ h
  | _ => cases h

/-- What an instruction can answer: a fault of the table, latched, or its effect and its directive's `PC`. -/
theorem exec_cases {i : Instr} {s t : State} (h : exec i s = .next t) :
    (∃ k info, faultOf i s = some (k, info) ∧ t = { s with fault := some k, faultInfo := info }) ∨
    (faultOf i s = none ∧ t = { effect i s with pc := pcAfter i s }) := by
  cases hf : faultOf i s with
  | some f =>
    rw [exec_of_fault hf] at h
    exact .inl ⟨f.1, f.2, rfl, (Host.Outcome.next.inj h).symm⟩
  | none =>
    rw [exec_of_noFault hf] at h
    exact .inr ⟨rfl, (Host.Outcome.next.inj h).symm⟩

/-! ## The fields an effect leaves as they were -/

section Frame

variable (i : Instr) (s : State)

@[simp] theorem effect_fault : (effect i s).fault = s.fault := by
  cases i with
  | load x => exact s.loadRegs_fault x
  | _ => rfl

@[simp] theorem effect_faultInfo : (effect i s).faultInfo = s.faultInfo := by
  cases i with
  | load x => exact s.loadRegs_faultInfo x
  | _ => rfl

@[simp] theorem effect_keys : (effect i s).keys = s.keys := by
  cases i with
  | load x => exact s.loadRegs_keys x
  | _ => rfl

@[simp] theorem effect_rnd : (effect i s).rnd = s.rnd := by
  cases i with
  | load x => exact s.loadRegs_rnd x
  | _ => rfl

@[simp] theorem effect_inputs : (effect i s).inputs = s.inputs := by
  cases i with
  | load x => exact s.loadRegs_inputs x
  | _ => rfl

@[simp] theorem effect_draws : (effect i s).draws = s.draws := by
  cases i with
  | load x => exact s.loadRegs_draws x
  | _ => rfl

@[simp] theorem effect_loading : (effect i s).loading = s.loading := by
  cases i with
  | load x => exact s.loadRegs_loading x
  | _ => rfl

variable {i}

theorem effect_sp (hcall : ∀ nnn, i ≠ .call nnn) (hret : i ≠ .ret) : (effect i s).sp = s.sp := by
  cases i with
  | call nnn => exact absurd rfl (hcall nnn)
  | ret => exact absurd rfl hret
  | load x => exact s.loadRegs_sp x
  | _ => rfl

theorem effect_stack (hcall : ∀ nnn, i ≠ .call nnn) : (effect i s).stack = s.stack := by
  cases i with
  | call nnn => exact absurd rfl (hcall nnn)
  | load x => exact s.loadRegs_stack x
  | _ => rfl

theorem effect_i (hldI : ∀ nnn, i ≠ .ldI nnn) (haddI : ∀ x, i ≠ .addI x) (hldF : ∀ x, i ≠ .ldF x) :
    (effect i s).i = s.i := by
  cases i with
  | ldI nnn => exact absurd rfl (hldI nnn)
  | addI x => exact absurd rfl (haddI x)
  | ldF x => exact absurd rfl (hldF x)
  | load x => exact s.loadRegs_i x
  | _ => rfl

theorem effect_dt (h : ∀ x, i ≠ .ldDTVx x) : (effect i s).dt = s.dt := by
  cases i with
  | ldDTVx x => exact absurd rfl (h x)
  | load x => exact s.loadRegs_dt x
  | _ => rfl

theorem effect_st (h : ∀ x, i ≠ .ldSTVx x) : (effect i s).st = s.st := by
  cases i with
  | ldSTVx x => exact absurd rfl (h x)
  | load x => exact s.loadRegs_st x
  | _ => rfl

theorem effect_mem (hldB : ∀ x, i ≠ .ldB x) (hstore : ∀ x, i ≠ .store x) : (effect i s).mem = s.mem := by
  cases i with
  | ldB x => exact absurd rfl (hldB x)
  | store x => exact absurd rfl (hstore x)
  | load x => exact s.loadRegs_mem x
  | _ => rfl

theorem effect_fb_changed (hcls : i ≠ .cls) (hdrw : ∀ x y n, i ≠ .drw x y n) :
    (effect i s).fb = s.fb ∧ (effect i s).changed = s.changed := by
  cases i with
  | cls => exact absurd rfl hcls
  | drw x y n => exact absurd rfl (hdrw x y n)
  | load x => exact ⟨s.loadRegs_fb x, s.loadRegs_changed x⟩
  | _ => exact ⟨rfl, rfl⟩

theorem effect_wait (h : ∀ x, i ≠ .ldVxK x) : (effect i s).wait = s.wait ∧ (effect i s).waitReg = s.waitReg := by
  cases i with
  | ldVxK x => exact absurd rfl (h x)
  | load x => exact ⟨s.loadRegs_wait x, s.loadRegs_waitReg x⟩
  | _ => exact ⟨rfl, rfl⟩

/-! ## The registers -/

theorem otherRegs_setReg (x : Reg) (b : Byte) : otherRegs [x] s (s.setReg x b) := fun _ hr =>
  s.reg_setReg_other b (List.ne_of_not_mem_cons hr)

theorem otherRegs_setFlagThenReg (f : Bool) (x : Reg) (b : Byte) : otherRegs [VF, x] s (s.setFlagThenReg f x b) := by
  intro r hr
  simp only [List.mem_cons, List.not_mem_nil, or_false, not_or] at hr
  rw [State.reg_setFlagThenReg, if_neg hr.2, if_neg hr.1]

theorem otherRegs_loadRegs (x : Reg) :
    otherRegs ((List.finRange 16).filter (fun r => r.val ≤ x.val)) s (s.loadRegs x) := by
  intro r hr
  have hx : ¬r.val ≤ x.val := fun hle => hr (List.mem_filter.2 ⟨List.mem_finRange r, decide_eq_true hle⟩)
  rw [State.reg_loadRegs, if_neg hx]

/-- Only the registers of R23's table change. -/
theorem otherRegs_effect (i : Instr) : otherRegs (regWrites i) s (effect i s) := by
  cases i with
  | ldImm x _ | addImm x _ | rnd x _ | ldVxDT x => exact otherRegs_setReg s x _
  | ldReg x _ | orReg x _ | andReg x _ | xorReg x _ => exact otherRegs_setReg s x _
  | addReg x _ | subReg x _ | subnReg x _ | shr x _ | shl x _ => exact otherRegs_setFlagThenReg s _ x _
  | drw x y n => exact otherRegs_setReg { s with fb := _, changed := true } VF _
  | addI x => exact otherRegs_setReg { s with i := _ } VF _
  | load x => exact otherRegs_loadRegs s x
  | _ => exact fun _ _ => rfl

/-- The vector of registers is the same where R23's table lists none. -/
theorem effect_v (h : regWrites i = []) : (effect i s).v = s.v := by
  ext1 k hk
  exact otherRegs_effect s i ⟨k, hk⟩ (h ▸ List.not_mem_nil)

/-- The flag writers and the instructions with destination 0xF are all that write `VF` (R22). -/
theorem VF_not_mem_regWrites (hflag : writesFlag i = false) (hdest : destIsVF i = false) : VF ∉ regWrites i := by
  cases i with
  | addReg _ _ | subReg _ _ | subnReg _ _ | shr _ _ | shl _ _ | drw _ _ _ | addI _ => cases hflag
  | ldImm x _ | addImm x _ | rnd x _ | ldVxDT x | ldReg x _ | orReg x _ | andReg x _ | xorReg x _ =>
    exact fun hmem => ne_of_beq_false hdest (List.mem_singleton.1 hmem).symm
  | load x =>
    intro hmem
    have hle : 15 ≤ x.val := of_decide_eq_true (List.mem_filter.1 hmem).2
    exact ne_of_beq_false hdest (by ext; change x.val = 15; omega)
  | _ => exact List.not_mem_nil

theorem Byte.ofFlag_eq_zero_or_one (f : Bool) : Byte.ofFlag f = 0 ∨ Byte.ofFlag f = 1 := by
  cases f with
  | false => exact .inl rfl
  | true => exact .inr rfl

theorem reg_VF_setFlagThenReg (f : Bool) {x : Reg} (b : Byte) (hx : x ≠ VF) :
    (s.setFlagThenReg f x b).reg VF = Byte.ofFlag f := by
  rw [State.reg_setFlagThenReg, if_neg hx.symm, if_pos rfl]

/-- The seven flag writers leave a flag in `VF`, unless their result goes there (R22, R38). -/
theorem effect_flag (hflag : writesFlag i = true) (hdest : destIsVF i = false) : ∃ f, (effect i s).reg VF = Byte.ofFlag f := by
  cases i with
  | addReg x _ | subReg x _ | subnReg x _ | shr x _ | shl x _ =>
    exact ⟨_, reg_VF_setFlagThenReg s _ _ (ne_of_beq_false hdest)⟩
  | drw x y n => exact ⟨_, State.reg_setReg_same _ _ _⟩
  | addI x => exact ⟨_, State.reg_setReg_same _ _ _⟩
  | _ => cases hflag

end Frame

end Sys2Proof.Machine

section
open Sys2Proof Sys2Proof.Machine

/-- Settles O16: the two outcomes of an instruction, of which the effect leaves the fault latch alone. -/
theorem instructionFaultsExactlyByTable : Obligations.InstructionFaultsExactlyByTable := by
  refine ⟨fun i s k info h => exec_of_fault h, fun i s h => ⟨_, exec_of_noFault h, ?_⟩, rfl, rfl, rfl, rfl, rfl⟩
  exact ⟨effect_fault i s, effect_faultInfo i s⟩

/-- Settles O17, by the outcome of an instruction that does not fault. -/
theorem everyInstructionAppliesItsDirective : Obligations.EveryInstructionAppliesItsDirective :=
  fun _ _ h => ⟨_, exec_of_noFault h, rfl⟩

/-- Settles O18: a fault writes the latch alone, and of each other field the effect's frame names the writers. -/
theorem eachStateHasOnlyItsWriters : Obligations.EachStateHasOnlyItsWriters := by
  intro i s t h
  obtain ⟨k, info, hf, rfl⟩ | ⟨hf, rfl⟩ := exec_cases h
  · refine ⟨fun _ _ => rfl, fun _ => rfl, fun hn => absurd (hf.symm.trans hn) nofun, fun _ => rfl,
      ?_, ?_, ?_, ?_, ?_, ?memOfFault, ?_, ?_, rfl, rfl, rfl, rfl, rfl⟩
    case memOfFault =>
      split
      · trivial
      · trivial
      · exact fun _ => rfl
    all_goals split <;> trivial
  · refine ⟨otherRegs_effect s i, effect_v s, fun _ => ⟨effect_fault i s, effect_faultInfo i s⟩, fun hn => absurd hf hn,
      ?sp, ?stack, ?i, ?dt, ?st, ?mem, ?fb, ?wait, effect_keys i s, effect_rnd i s, effect_inputs i s, effect_draws i s,
      effect_loading i s⟩
    case sp =>
      split
      · trivial
      · trivial
      next hcall hret => exact effect_sp s hcall hret
    case stack =>
      split
      · trivial
      next hcall => exact effect_stack s hcall
    case i =>
      split
      · trivial
      · trivial
      · trivial
      next h1 h2 h3 => exact effect_i s h1 h2 h3
    case dt =>
      split
      · trivial
      next h => exact effect_dt s h
    case st =>
      split
      · trivial
      next h => exact effect_st s h
    case mem =>
      split
      · trivial
      · trivial
      next h1 h2 => exact fun a => congrArg (Memory.read · a) (effect_mem s h1 h2)
    case fb =>
      split
      · trivial
      · trivial
      next h1 h2 => exact effect_fb_changed s h1 h2
    case wait =>
      split
      · trivial
      next h => exact effect_wait s h

/-- Settles O19: an instruction that is no flag writer and has another destination does not list `VF` in the table of R23. -/
theorem flagRegisterHasOnlyItsWriters : Obligations.FlagRegisterHasOnlyItsWriters := by
  intro i s t h
  obtain ⟨k, info, hf, rfl⟩ | ⟨hf, rfl⟩ := exec_cases h
  · exact ⟨fun _ _ => rfl, fun _ _ hn => absurd (hf.symm.trans hn) nofun⟩
  · refine ⟨fun hflag hdest => otherRegs_effect s i VF (VF_not_mem_regWrites hflag hdest), fun hflag hdest _ => ?_⟩
    obtain ⟨f, hVF⟩ := effect_flag s hflag hdest
    exact hVF ▸ Byte.ofFlag_eq_zero_or_one f

end

/-! PROOFS. What every step keeps and shows (spec/40_execution_cycle.md section 1, spec/10_state.md sections 5, 8 and 10), by the four
kinds of tick: halted, blocked, faulting at its fetch, executing. -/

namespace Sys2Proof.Machine

/-! ## A step answers a next state -/

theorem exec_answers_next (i : Instr) (s : State) : ∃ t, exec i s = .next t := by
  cases hf : faultOf i s with
  | some f => exact ⟨_, exec_of_fault hf⟩
  | none => exact ⟨_, exec_of_noFault hf⟩

/-- The four kinds of tick (R120): every step answers a next state, and this is which. -/
theorem step_answers (s : State) : ∃ t, step s = .next t ∧
    (s.fault ≠ none ∧ t = s.takeInput ∨
    s.fault = none ∧ s.wait = true ∧ t = (s.takeInput.latchInputs s.nextInput).resolveWait ∨
    s.fault = none ∧ s.wait = false ∧ s.fetchWord = none ∧
      t = { s.atExec with fault := some .fetchFault, faultInfo := s.pc } ∨
    ∃ w, s.executing w ∧ exec (decodeWord w) s.atExec = .next t) := by
  by_cases hf : s.fault = none
  · cases hw : s.wait with
    | true => exact ⟨_, step_waiting s hf hw, .inr (.inl ⟨hf, rfl, rfl⟩)⟩
    | false =>
      cases hfetch : s.fetchWord with
      | none => exact ⟨_, step_unfetchable s hf hw hfetch, .inr (.inr (.inl ⟨hf, rfl, rfl, rfl⟩))⟩
      | some w =>
        obtain ⟨t, ht⟩ := exec_answers_next (decodeWord w) s.atExec
        exact ⟨t, (step_executing s w hf hw hfetch).trans ht, .inr (.inr (.inr ⟨w, ⟨hf, hw, hfetch⟩, ht⟩))⟩
  · exact ⟨_, step_halted s hf, .inl ⟨hf, rfl⟩⟩

theorem step_answers_next (s : State) : ∃ t, step s = .next t :=
  (step_answers s).imp fun _ h => h.1

/-- A step has one answer. -/
theorem eq_of_step {s t u : State} (ht : step s = .next t) (hu : step s = .next u) : t = u :=
  Host.Outcome.next.inj (ht.symm.trans hu)

/-- An executing tick runs the instruction that its word decodes to (R126, R127). -/
theorem step_of_decodeWord {s : State} {w : Word} {i : Instr} (hf : s.fault = none) (hw : s.wait = false)
    (hfetch : s.fetchWord = some w) (hdecode : decodeWord w = i) : step s = exec i s.atExec := by
  rw [step_executing s w hf hw hfetch, hdecode]

/-! ## The invariant of reachable states (R45) -/

theorem skip_pc_le {pc : Word} (hpc : pc.toNat ≤ 0xFFE) (c : Prop) [Decidable c] :
    (if c then pc + 4 else pc + 2).toNat ≤ 0x10FE := by
  split <;> bv_omega

/-- No directive leaves `PC` above 0x10FE, the highest target of `JP V0` (R158). -/
theorem pcAfter_le {s : State} (h : s.Inv) (hpc : s.pc.toNat ≤ 0xFFE) (i : Instr) : (pcAfter i s).toNat ≤ 0x10FE := by
  have hadvance : (s.pc + 2).toNat ≤ 0x10FE := by bv_omega
  cases i with
  | ret =>
    have hstack := h.stack_le ⟨s.sp.val - 1, by omega⟩
    rw [pcAfter, getElem?_pos s.stack (s.sp.val - 1) (by omega)]
    exact hstack.trans (by decide)
  | jp nnn | call nnn => exact (addrOperand_toNat nnn).le.trans (by omega)
  | jpV0 nnn =>
    have hn := addrOperand_toNat nnn
    have hb := zextByte_toNat (s.reg 0)
    change (addrOperand nnn + zextByte (s.reg 0)).toNat ≤ _
    bv_omega
  | seImm x kk | sneImm x kk | seReg x kk | sneReg x kk | skp x | sknp x => exact skip_pc_le hpc _
  | _ => exact hadvance

theorem effect_stack_le {s : State} (h : s.Inv) (hpc : s.pc.toNat ≤ 0xFFE) (i : Instr) (k : Fin 16) :
    (effect i s).stack[k].toNat ≤ 0x1000 := by
  cases i with
  | call nnn =>
    have hk := h.stack_le k
    simp only [effect, Fin.getElem_fin, Vector.getElem_setIfInBounds] at hk ⊢
    split
    · bv_omega
    · exact hk
  | load x => exact (s.loadRegs_stack x).symm ▸ h.stack_le k
  | _ => exact h.stack_le k

theorem storeAtI_wf {s : State} (h : s.mem.wf) {bs : List Byte} (hr : s.i.toNat + bs.length ≤ 0x1000) :
    (s.storeAtI bs).mem.wf := Memory.writeBytes_wf bs s.mem _ h hr

theorem effect_mem_wf {s : State} (h : s.mem.wf) {i : Instr} (hf : faultOf i s = none) : (effect i s).mem.wf := by
  cases i with
  | ldB x =>
    have hr := (memFaultOf_eq_none_iff 3 s).1 hf
    exact storeAtI_wf h (by simpa [bcdDigits] using hr)
  | store x =>
    have hr := (memFaultOf_eq_none_iff (x.val + 1) s).1 hf
    exact storeAtI_wf h (by rw [State.regsUpTo_length]; omega)
  | load x => exact (s.loadRegs_mem x).symm ▸ h
  | _ => exact h

/-- An instruction of a tick keeps the invariant: the state it sees has `CHANGED` cleared and does not wait, so a fault may be latched. -/
theorem exec_keeps_inv {i : Instr} {s t : State} (h : s.Inv) (hpc : s.pc.toNat ≤ 0xFFE) (hf : s.fault = none)
    (hw : s.wait = false) (hc : s.changed = false) (he : exec i s = .next t) : t.Inv := by
  obtain ⟨k, info, -, rfl⟩ | ⟨hnf, rfl⟩ := exec_cases he
  · exact ⟨h.pc_le, h.stack_le, fun _ => hw, fun _ => hc, h.mem_wf⟩
  · have hsafe : (effect i s).fault = none := (effect_fault i s).trans hf
    exact ⟨pcAfter_le h hpc i, effect_stack_le h hpc i, absurd hsafe, absurd hsafe, effect_mem_wf h.mem_wf hnf⟩

theorem State.Inv.atExec {s : State} (h : s.Inv) (hf : s.fault = none) : s.atExec.Inv :=
  ⟨h.pc_le, h.stack_le, absurd hf, absurd hf, h.mem_wf⟩

theorem State.fetchWord_eq_some_pc_le {s : State} {w : Word} (h : s.fetchWord = some w) : s.pc.toNat ≤ 0xFFE := by
  by_contra hpc
  rw [s.fetchWord_none hpc] at h
  cases h

theorem resolveWait_keeps_inv {s : State} (h : s.Inv) (hf : s.fault = none) : s.resolveWait.Inv := by
  obtain ⟨v, hv⟩ | hv := s.resolveWait_cases
  · rw [hv]
    exact ⟨h.pc_le, h.stack_le, absurd hf, absurd hf, h.mem_wf⟩
  · rwa [hv]

theorem step_keeps_inv {s t : State} (h : s.Inv) (hs : step s = .next t) : t.Inv := by
  obtain ⟨u, hu, hkind⟩ := step_answers s
  obtain rfl := eq_of_step hs hu
  obtain ⟨-, rfl⟩ | ⟨hf, -, rfl⟩ | ⟨-, hw, -, rfl⟩ | ⟨w, ⟨hf, hw, hfetch⟩, he⟩ := hkind
  · exact ⟨h.pc_le, h.stack_le, h.not_waiting_halted, h.not_changed_halted, h.mem_wf⟩
  · exact resolveWait_keeps_inv ⟨h.pc_le, h.stack_le, absurd hf, absurd hf, h.mem_wf⟩ hf
  · exact ⟨h.pc_le, h.stack_le, fun _ => hw, fun _ => rfl, h.mem_wf⟩
  · exact exec_keeps_inv (h.atExec hf) (State.fetchWord_eq_some_pc_le hfetch) hf hw rfl he

theorem reset_inv : State.reset.Inv :=
  ⟨by decide, by decide, fun _ => rfl, fun _ => rfl, Memory.reset_wf⟩

theorem hostMove_keeps_inv (m : HostMove) {s t : State} (h : s.Inv) (hm : hostMove m s = .next t) : t.Inv := by
  cases m with
  | rst =>
    cases hm
    exact ⟨reset_inv.pc_le, reset_inv.stack_le, fun _ => rfl, fun _ => rfl, reset_inv.mem_wf⟩
  | load addr data =>
    simp only [hostMove] at hm
    split at hm
    case isTrue =>
      cases hm
      exact ⟨h.pc_le, h.stack_le, h.not_waiting_halted, h.not_changed_halted, Memory.write_wf _ _ _ h.mem_wf addr.isLt⟩
    case isFalse => cases hm
  | tick inp =>
    exact step_keeps_inv (s := { s with inputs := inp :: s.inputs })
      ⟨h.pc_le, h.stack_le, h.not_waiting_halted, h.not_changed_halted, h.mem_wf⟩ hm

/-! ## CHANGED -/

/-- Of the instructions only `CLS` and `DRW` set `CHANGED`, and both always do (R33). -/
theorem effect_changed_iff {i : Instr} {s : State} (hc : s.changed = false) :
    (effect i s).changed = true ↔ i = .cls ∨ ∃ x y n, i = .drw x y n := by
  cases i with
  | cls => exact iff_of_true rfl (.inl rfl)
  | drw x y n => exact iff_of_true rfl (.inr ⟨x, y, n, rfl⟩)
  | _ =>
    rw [(effect_fb_changed s (by simp) (by simp)).2]
    simp [hc]

/-- `CHANGED` after an instruction that sees it cleared: set by a `CLS`, or by a `DRW` whose sprite is in range (R33, R72). -/
theorem exec_changed_iff {i : Instr} {s t : State} (hc : s.changed = false) (h : exec i s = .next t) :
    t.changed = true ↔ i = .cls ∨ ∃ x y n, i = .drw x y n ∧ (n.val = 0 ∨ s.i.toNat + n.val - 1 ≤ 0xFFF) := by
  obtain ⟨k, info, hf, rfl⟩ | ⟨hf, rfl⟩ := exec_cases h
  · refine iff_of_false (Bool.eq_false_iff.1 hc) ?_
    rintro (rfl | ⟨x, y, n, rfl, hn⟩)
    · cases hf
    · rw [faultOf, (memFaultOf_eq_none_iff n.val s).2 (by omega)] at hf
      cases hf
  · refine (effect_changed_iff hc).trans (or_congr_right ?_)
    refine exists_congr fun x => exists_congr fun y => exists_congr fun n => ⟨?_, And.left⟩
    rintro rfl
    have hr := (memFaultOf_eq_none_iff n.val s).1 hf
    exact ⟨rfl, by omega⟩

/-! ## The inputs -/

/-- Only `SKP`, `SKNP` read the keys and only `RND` reads the port `rnd`: other latched inputs, where the instruction does not read them,
leave the next state as it is but for themselves (R40, R44). -/
theorem exec_withInputs {i : Instr} {s t : State} {keys : BitVec 16} {rnd : Byte}
    (hkeys : keys = s.keys ∨ (∀ x, i ≠ .skp x) ∧ ∀ x, i ≠ .sknp x) (hrnd : rnd = s.rnd ∨ ∀ x kk, i ≠ .rnd x kk)
    (h : exec i s = .next t) : exec i { s with keys := keys, rnd := rnd } = .next { t with keys := keys, rnd := rnd } := by
  have hfault : faultOf i { s with keys := keys, rnd := rnd } = faultOf i s := by cases i <;> rfl
  obtain ⟨k, info, hf, rfl⟩ | ⟨hf, rfl⟩ := exec_cases h
  · exact exec_of_fault (hfault.trans hf)
  · rw [exec_of_noFault (hfault.trans hf)]
    have hpc : pcAfter i { s with keys := keys, rnd := rnd } = pcAfter i s := by
      obtain rfl | ⟨hskp, hsknp⟩ := hkeys
      · cases i <;> rfl
      · cases i with
        | skp x => exact absurd rfl (hskp x)
        | sknp x => exact absurd rfl (hsknp x)
        | _ => rfl
    have heff : effect i { s with keys := keys, rnd := rnd } = { effect i s with keys := keys, rnd := rnd } := by
      obtain rfl | hrnd := hrnd
      · cases i <;> rfl
      · cases i with
        | rnd x kk => exact absurd rfl (hrnd x kk)
        | _ => rfl
    rw [hpc, heff]

/-- Two executing ticks whose inputs differ only where the instruction does not read them end alike but for the latched inputs. -/
theorem step_two_inputs {s : State} {a b : TickInput} {w : Word} (h : s.executing w)
    (hkeys : b.keys = a.keys ∨ (∀ x, decodeWord w ≠ .skp x) ∧ ∀ x, decodeWord w ≠ .sknp x)
    (hrnd : b.rnd = a.rnd ∨ ∀ x kk, decodeWord w ≠ .rnd x kk) :
    ∃ t, step { s with inputs := [a] } = .next t ∧ t.keys = a.keys ∧ t.rnd = a.rnd ∧
      step { s with inputs := [b] } = .next { t with keys := b.keys, rnd := b.rnd } := by
  obtain ⟨hf, hw, hfetch⟩ := h
  have hstep : ∀ c, step { s with inputs := [c] } = exec (decodeWord w) (State.atExec { s with inputs := [c] }) :=
    fun c => step_executing { s with inputs := [c] } w hf hw hfetch
  obtain ⟨t, ht⟩ := exec_answers_next (decodeWord w) (State.atExec { s with inputs := [a] })
  have hta : t.keys = a.keys ∧ t.rnd = a.rnd := by
    obtain ⟨k, info, -, rfl⟩ | ⟨-, rfl⟩ := exec_cases ht
    · exact ⟨rfl, rfl⟩
    · exact ⟨effect_keys _ _, effect_rnd _ _⟩
  exact ⟨t, (hstep a).trans ht, hta.1, hta.2, (hstep b).trans (exec_withInputs hkeys hrnd ht)⟩

end Sys2Proof.Machine

section
open Sys2Proof Sys2Proof.Machine

/-- Settles O55, by the four kinds of tick: a halted tick only takes its input, a blocked one writes a register or `WAIT`, a faulting
fetch latches where `CHANGED` is clear and `WAIT` is 0, and so does an instruction that faults; one that does not stays in the bounds. -/
theorem everyStepKeepsTheInvariant : Obligations.EveryStepKeepsTheInvariant := fun _ _ => step_keeps_inv

/-- Settles O54, by the values of the reset state. -/
theorem invariantAtReset : Obligations.InvariantAtReset := reset_inv

/-- Settles O56: `rst` gives the reset state, a loader write is a write to memory, and a tick is a step. -/
theorem everyHostMoveKeepsTheInvariant : Obligations.EveryHostMoveKeepsTheInvariant := fun m _ _ => hostMove_keeps_inv m

/-- Settles O15: a fault is a next state, of an instruction and of a fetch. -/
theorem everyStepAnswersNext : Obligations.EveryStepAnswersNext := ⟨exec_answers_next, step_answers_next⟩

/-- Settles O14, by the kinds of tick: a blocked tick and a faulting fetch leave `CHANGED` cleared, and of the instructions an executing
tick can run only `CLS` and `DRW` set it. -/
theorem changedExactlyAfterClsOrDrw : Obligations.ChangedExactlyAfterClsOrDrw := by
  refine ⟨fun s hf => ?_, fun s hf => ⟨_, step_halted s hf, rfl⟩⟩
  obtain ⟨t, ht, hkind⟩ := step_answers s
  refine ⟨t, ht, rfl, ?_⟩
  obtain ⟨hn, -⟩ | ⟨-, hw, rfl⟩ | ⟨-, hw, hfetch, rfl⟩ | ⟨w, ⟨-, hw, hfetch⟩, he⟩ := hkind
  · exact absurd hf hn
  · simp [hw]
  · simp [hfetch]
  · simp only [exec_changed_iff s.atExec_changed he, hw, hfetch, true_and]
    simp

/-- Settles O20: each clause is one choice of the inputs that may differ between two executing ticks. -/
theorem inputsReachOnlyTheirReaders : Obligations.InputsReachOnlyTheirReaders := by
  intro s a b w hf hw hfetch
  have hx : s.executing w := ⟨hf, hw, hfetch⟩
  refine ⟨fun hrnd hskp hsknp => ?_, fun hrnd hkeys => ?_, fun hskp hsknp hrnd => ?_⟩
  · obtain ⟨t, ha, -, -, hb⟩ := step_two_inputs (a := a) (b := b) hx (.inr ⟨hskp, hsknp⟩) (.inr hrnd)
    exact ⟨t, ha, hb⟩
  · obtain ⟨t, ha, htk, -, hb⟩ := step_two_inputs (a := a) (b := b) hx (.inl hkeys.symm) (.inr hrnd)
    rw [← hkeys, ← htk] at hb
    exact ⟨t, ha, hb⟩
  · obtain ⟨t, ha, -, htr, hb⟩ := step_two_inputs (a := a) (b := b) hx (.inr ⟨hskp, hsknp⟩) (.inl hrnd.symm)
    rw [← hrnd, ← htr] at hb
    exact ⟨t, ha, hb⟩
end

/-! PROOFS. Control flow with the call stack and the offset jump (spec/41_control_flow.md R151, R153, R158). -/

namespace Sys2Proof.Machine

/-- `PC` after `JP V0` is an unbounded sum: 0xFFF + 0xFF fits in 16 bits (R158; decision D7). -/
theorem jpV0_target_toNat (nnn : BitVec 12) (b : Byte) : (addrOperand nnn + zextByte b).toNat = nnn.toNat + b.toNat := by
  have hn := addrOperand_toNat nnn
  have hb := zextByte_toNat b
  bv_omega

end Sys2Proof.Machine

section
open Sys2Proof Sys2Proof.Machine

/-- Settles O22: the jump completes at the sum. -/
theorem jumpV0AddsRegisterZero : Obligations.JumpV0AddsRegisterZero := by
  intro nnn s
  obtain ⟨t, hexec, hpc, hframe⟩ :=
    complete_pc_and_frame (d := .jumpTo (addrOperand nnn + zextByte (s.reg 0))) (s := s) rfl
  exact ⟨decodeWord_encodeWord (i := .jpV0 nnn) rfl, t, hexec, hpc ▸ jpV0_target_toNat nnn (s.reg 0), hframe⟩

/-- Settles O23, by the next state of a `CALL` with room on the stack. -/
theorem callPushesReturnAddress : Obligations.CallPushesReturnAddress := by
  intro nnn s h
  exact ⟨decodeWord_encodeWord (i := .call nnn) rfl, _, execCall_room nnn s h, Vector.getElem_set_self h, rfl,
    addrOperand_toNat nnn, fun k hk => Vector.getElem_set_ne h k.isLt hk.symm, rfl, fun _ => rfl⟩

/-- Settles O24, by the next state of a `RET` with an address stacked. -/
theorem returnPopsReturnAddress : Obligations.ReturnPopsReturnAddress := by
  intro s h
  exact ⟨decodeWord_encodeWord (i := .ret) rfl, _, execRet_nonempty s h, rfl, rfl, rfl, fun _ => rfl⟩

/-- Settles O25: the `RET` pops the entry the `CALL` has just pushed. -/
theorem callThenReturnComesBack : Obligations.CallThenReturnComesBack := by
  intro nnn s h
  refine ⟨_, _, execCall_room nnn s h, execRet_nonempty { s with
    stack := s.stack.set s.sp.val (s.pc + 2) h, sp := ⟨s.sp.val + 1, Nat.succ_lt_succ h⟩, pc := addrOperand nnn }
    (Nat.succ_pos _), Vector.getElem_set_self h, rfl, fun k hk => Vector.getElem_set_ne h k.isLt hk.symm, rfl, fun _ => rfl⟩

end

/-! PROOFS. The register writers with a flag, and `RND` (spec/42_alu.md R177 to R182). A flag writer writes `VF`, then its destination,
and completes, so each proof is the instruction's decoding, the values of result and flag, and the one frame of such a write. -/

namespace Sys2Proof.Machine

/-- An instruction that writes a flag, then its result, and completes: the result is in `V[x]`, the flag in `VF` unless that is `V[x]`
(R170; decision D9), every other register is kept, `PC` advances by 2 and nothing else changes. -/
theorem complete_setFlagThenReg_frame (f : Bool) (x : Reg) (b : Byte) (s : State) :
    ∃ t, complete .advance (s.setFlagThenReg f x b) = .next t ∧ t.reg x = b ∧ (x ≠ VF → t.reg VF = Byte.ofFlag f) ∧
      otherRegs [x, VF] s t ∧ onlyRegs s t := by
  refine ⟨_, complete_next _ _, ?value, fun hx => ?flag, fun r hr => ?others, rfl, fun _ => rfl⟩
  case value => rw [State.reg_withPc, State.reg_setFlagThenReg, if_pos rfl]
  case flag => exact reg_VF_setFlagThenReg s f b hx
  case others => exact otherRegs_setFlagThenReg s f x b r fun h => hr ((List.Perm.swap x VF []).mem_iff.1 h)

theorem Byte.ofFlag_decide (p : Prop) [Decidable p] : Byte.ofFlag (decide p) = if p then 1 else 0 := by
  simp [Byte.ofFlag]

/-- The difference of bytes is the integers' modulo 256. -/
theorem Byte.toNat_sub_int (a b : Byte) : ((a - b).toNat : Int) = (a.toNat - b.toNat : Int) % 256 := by
  rw [BitVec.toNat_sub]
  omega

/-- The source of the shifts, as a case distinction on the parameter `SHIFT_SRC` (R180, R181). -/
theorem State.shiftSource_eq (src : ShiftSrc) (s : State) (x y : Reg) :
    s.shiftSource src x y = if src = .x then s.reg x else s.reg y := by
  cases src <;> rfl

theorem toNat_shiftRight_one (b : Byte) : (b >>> 1).toNat = b.toNat / 2 := by
  rw [BitVec.toNat_ushiftRight, Nat.shiftRight_eq_div_pow, pow_one]

theorem toNat_shiftLeft_one (b : Byte) : (b <<< 1).toNat = b.toNat * 2 % 256 := by
  rw [BitVec.toNat_shiftLeft, Nat.shiftLeft_eq, pow_one]

theorem toNat_lowBitFlag : ∀ b : Byte, (Byte.ofFlag (lowBitFlag b)).toNat = b.toNat % 2 := by decide

theorem toNat_highBitFlag : ∀ b : Byte, (Byte.ofFlag (highBitFlag b)).toNat = b.toNat / 128 := by decide

end Sys2Proof.Machine

section
open Sys2Proof Sys2Proof.Machine

/-- Settles O30: the sum of bytes is modulo 256, and the flag is the carry of the exact sum. -/
theorem addRegistersSetsCarry : Obligations.AddRegistersSetsCarry := by
  intro x y s
  obtain ⟨t, hexec, hvalue, hflag, hframe⟩ :=
    complete_setFlagThenReg_frame (carryFlag (s.reg x) (s.reg y)) x (s.reg x + s.reg y) s
  exact ⟨decodeWord_encodeWord (i := .addReg x y) rfl, t, hexec, by rw [hvalue, BitVec.toNat_add],
    fun hx => (hflag hx).trans (Byte.ofFlag_decide _), hframe⟩

/-- Settles O31: both subtract bytes, minuend and subtrahend exchanged; the flag compares them strictly. -/
theorem subtractionsSetStrictlyGreater : Obligations.SubtractionsSetStrictlyGreater := by
  intro x y s
  refine ⟨⟨decodeWord_encodeWord (i := .subReg x y) rfl, ?subReg⟩, decodeWord_encodeWord (i := .subnReg x y) rfl, ?subnReg⟩
  case subReg =>
    obtain ⟨t, hexec, hvalue, hflag, hframe⟩ :=
      complete_setFlagThenReg_frame (greaterFlag (s.reg x) (s.reg y)) x (s.reg x - s.reg y) s
    exact ⟨t, hexec, by rw [hvalue, Byte.toNat_sub_int], fun hx => (hflag hx).trans (Byte.ofFlag_decide _), hframe⟩
  case subnReg =>
    obtain ⟨t, hexec, hvalue, hflag, hframe⟩ :=
      complete_setFlagThenReg_frame (greaterFlag (s.reg y) (s.reg x)) x (s.reg y - s.reg x) s
    exact ⟨t, hexec, by rw [hvalue, Byte.toNat_sub_int], fun hx => (hflag hx).trans (Byte.ofFlag_decide _), hframe⟩

/-- Settles O32: for any source value the result is its half or its double modulo 256, the flag the bit shifted out. -/
theorem shiftsByOneFromTheirSource : Obligations.ShiftsByOneFromTheirSource := by
  intro x y s src hsrc
  rw [← State.shiftSource_eq] at hsrc
  subst hsrc
  refine ⟨⟨decodeWord_encodeWord (i := .shr x y) rfl, ?shr⟩, decodeWord_encodeWord (i := .shl x y) rfl, ?shl⟩
  case shr =>
    obtain ⟨t, hexec, hvalue, hflag, hframe⟩ := complete_setFlagThenReg_frame
      (lowBitFlag (s.shiftSource Config.shiftSrc x y)) x (s.shiftSource Config.shiftSrc x y >>> 1) s
    exact ⟨t, hexec, by rw [hvalue, toNat_shiftRight_one], fun hx => by rw [hflag hx, toNat_lowBitFlag], hframe⟩
  case shl =>
    obtain ⟨t, hexec, hvalue, hflag, hframe⟩ := complete_setFlagThenReg_frame
      (highBitFlag (s.shiftSource Config.shiftSrc x y)) x (s.shiftSource Config.shiftSrc x y <<< 1) s
    exact ⟨t, hexec, by rw [hvalue, toNat_shiftLeft_one], fun hx => by rw [hflag hx, toNat_highBitFlag], hframe⟩

/-- Settles O33: the instruction masks the sampled port, which in a tick is the input presented to it. -/
theorem randomByteIsMasked : Obligations.RandomByteIsMasked := by
  intro x kk s
  have hdecode : decodeWord (encodeXKK 0xC x kk) = .rnd x kk := decodeWord_encodeWord (i := .rnd x kk) rfl
  refine ⟨hdecode, ?exec, fun hf hw hfetch => ?tick⟩
  case exec =>
    obtain ⟨t, hexec, hvalue, hframe⟩ := complete_setReg_frame x (s.rnd &&& kk) s
    exact ⟨t, hexec, fun k _ => by rw [hvalue, BitVec.getLsbD_and], hframe⟩
  case tick =>
    obtain ⟨t, hexec, hvalue, -⟩ := complete_setReg_frame x (s.atExec.rnd &&& kk) s.atExec
    exact ⟨t, (step_of_decodeWord hf hw hfetch hdecode).trans hexec, hvalue⟩

end

/-! PROOFS. The index register and data memory (spec/43_index_and_memory.md R202 to R206). -/

namespace Sys2Proof.Machine

theorem fontIndex_toNat (b : Byte) : (zextByte b * BitVec.ofNat 16 Config.glyphBytes).toNat = b.toNat * 5 := by
  have hb := zextByte_toNat b
  rw [BitVec.toNat_mul, hb]
  change b.toNat * 5 % 65536 = _
  omega

/-- A store at `I` in range: each byte is where it belongs, every byte outside is kept, `PC` advances by 2 and nothing else changes
(R72, R204, R205). -/
theorem withRange_storeAtI_frame (bs : List Byte) (s : State) (h : s.i.toNat + bs.length ≤ 0x1000) :
    ∃ t, withRange bs.length s (complete .advance (s.storeAtI bs)) = .next t ∧
      (∀ j (hj : j < bs.length), t.mem.read (s.dataAddr j) = bs[j]) ∧
      (∀ a, a = s.dataAddr 0 → sameMemoryOutside a bs.length s t) ∧ t = { s with mem := t.mem, pc := s.pc + 2 } := by
  refine ⟨_, (withRange_inRange _ s _ (.inr h)).trans (complete_next _ _), fun j hj => ?bytes, ?outside, rfl⟩
  case bytes => exact Memory.read_writeBytes bs s.mem s.i.toNat j hj
  case outside =>
    rintro a rfl c hc
    exact Memory.read_writeBytes_other bs s.mem _ c hc

/-- `LD B, Vx` in range (R204). -/
theorem exec_ldB_frame (x : Reg) (s : State) (h : s.i.toNat + 2 ≤ 0xFFF) :
    ∃ t, exec (.ldB x) s = .next t ∧ (∀ j (hj : j < 3), t.mem.read (s.dataAddr j) = (bcdDigits (s.reg x))[j]) ∧
      (∀ a, a = s.dataAddr 0 → sameMemoryOutside a 3 s t) ∧ t = { s with mem := t.mem, pc := s.pc + 2 } :=
  withRange_storeAtI_frame (bcdDigits (s.reg x)) s (by simp [bcdDigits]; omega)

/-- `LD [I], Vx` in range (R205). -/
theorem exec_store_frame (x : Reg) (s : State) (h : s.i.toNat + x.val ≤ 0xFFF) :
    ∃ t, exec (.store x) s = .next t ∧
      (∀ r : Reg, r.val ≤ x.val → t.mem.read (s.dataAddr r.val) = s.reg r) ∧
      (∀ a, a = s.dataAddr 0 → sameMemoryOutside a (x.val + 1) s t) ∧ t = { s with mem := t.mem, pc := s.pc + 2 } := by
  have hlen := s.regsUpTo_length x
  obtain ⟨t, hexec, hbytes, hout, hframe⟩ := withRange_storeAtI_frame (s.regsUpTo x) s (by omega)
  rw [hlen] at hexec hout
  refine ⟨t, hexec, fun r hr => ?_, hout, hframe⟩
  rw [hbytes r.val (by omega), s.regsUpTo_getElem]

theorem onlyRegs_loadRegs (x : Reg) (s : State) : onlyRegs s { s.loadRegs x with pc := s.pc + 2 } := by
  unfold State.loadRegs
  exact ⟨rfl, fun _ => rfl⟩

/-- `LD Vx, [I]` in range (R206). -/
theorem exec_load_frame (x : Reg) (s : State) (h : s.i.toNat + x.val ≤ 0xFFF) :
    ∃ t, exec (.load x) s = .next t ∧ (∀ r : Reg, t.reg r = if r.val ≤ x.val then s.dataByte r.val else s.reg r) ∧
      onlyRegs s t := by
  refine ⟨_, exec_load_inRange (by omega), fun r => ?regs, onlyRegs_loadRegs x s⟩
  case regs => rw [State.reg_withPc, State.reg_loadRegs]

theorem toNat_tens (b : Byte) : (b / 10 % 10).toNat = b.toNat / 10 % 10 := by
  rw [BitVec.toNat_umod, BitVec.toNat_udiv]; rfl

end Sys2Proof.Machine

section
open Sys2Proof Sys2Proof.Machine

/-- Settles O35: the flag is of the new index; `V[x]` is read before either is written. -/
theorem addIndexFlagsAboveThreshold : Obligations.AddIndexFlagsAboveThreshold := by
  intro x s
  refine ⟨decodeWord_encodeWord (i := .addI x) rfl, _, complete_next _ _, ?index, ?flag, fun r hr => ?others, rfl, fun _ => rfl⟩
  case index => exact (BitVec.toNat_add ..).trans (by rw [zextByte_toNat])
  case flag => exact (State.reg_setReg_same _ _ _).trans (Byte.ofFlag_decide _)
  case others => exact State.reg_setReg_other _ _ (List.ne_of_not_mem_cons hr)

/-- Settles O36: the instruction writes `I` and completes; the product fits in 16 bits. -/
theorem fontIndexIsFiveTimesRegister : Obligations.FontIndexIsFiveTimesRegister := by
  intro x s
  obtain ⟨t, hexec, hvalue, hframe⟩ := complete_setIndex_frame (zextByte (s.reg x) * BitVec.ofNat 16 Config.glyphBytes) s
  exact ⟨decodeWord_encodeWord (i := .ldF x) rfl, t, hexec, hvalue ▸ fontIndex_toNat (s.reg x), hframe⟩

/-- Settles O37: the three bytes stored are the digits. -/
theorem bcdStoresThreeDigits : Obligations.BcdStoresThreeDigits := by
  intro x s h
  obtain ⟨t, hexec, hbytes, hframe⟩ := exec_ldB_frame x s h
  refine ⟨decodeWord_encodeWord (i := .ldB x) rfl, t, hexec, ?hundreds, ?tens, ?units, hframe⟩
  case hundreds => exact (congrArg BitVec.toNat (hbytes 0 (by decide))).trans BitVec.toNat_udiv
  case tens => exact (congrArg BitVec.toNat (hbytes 1 (by decide))).trans (toNat_tens (s.reg x))
  case units => exact (congrArg BitVec.toNat (hbytes 2 (by decide))).trans BitVec.toNat_umod

/-- Settles O38, by the frame of a store in range. -/
theorem storeRegistersToMemory : Obligations.StoreRegistersToMemory := fun x s h =>
  ⟨decodeWord_encodeWord (i := .store x) rfl, exec_store_frame x s h⟩

/-- Settles O39, by the frame of a load in range. -/
theorem loadRegistersFromMemory : Obligations.LoadRegistersFromMemory := by
  intro x s h
  obtain ⟨t, hexec, hregs, hframe⟩ := exec_load_frame x s h
  exact ⟨decodeWord_encodeWord (i := .load x) rfl, t, hexec, fun r hr => by rw [hregs, if_pos hr]; rfl,
    fun r hr => by rw [hregs, if_neg (by omega)], hframe⟩

/-- Settles O40: the load reads the bytes the store has written, since no register but `I` gives their addresses. -/
theorem storeThenLoadRoundTrips : Obligations.StoreThenLoadRoundTrips := by
  intro x s v' h
  obtain ⟨t, hstore, hbytes, -, hframe⟩ := exec_store_frame x s h
  have hi : t.i = s.i := by rw [hframe]
  obtain ⟨u, hload, hregs, -⟩ := exec_load_frame x { t with v := v' } (by rw [hi]; exact h)
  refine ⟨t, u, hstore, hload, fun r => (hregs r).trans ?_⟩
  split
  case isTrue hr =>
    rw [← hbytes r hr, State.dataByte, State.dataAddr, State.dataAddr, hi]
  case isFalse => rfl

end

/-! PROOFS. The sprite (spec/44_display.md R222, R223): the draws of `Laws/Display.lean`, in the statements' words. -/

namespace Sys2Proof.Machine

/-- The pixels a sprite's bytes lie on are those of its image in memory. -/
theorem litBySprite_iff (vx vy : Byte) (n : Nat) (s : State) (row : Fin 32) (col : Fin 64) :
    litBySprite vx vy (s.spriteBytes n) row col ↔ spriteHas vx vy n s row col := by
  constructor
  · rintro ⟨r, hr, c, hc, hrow, hcol, hbit⟩
    rw [State.spriteBytes_getElem] at hbit
    rw [State.spriteBytes_length] at hr
    exact ⟨r, c, hr, hc, (congrArg Fin.val hrow).symm, (congrArg Fin.val hcol).symm, hbit⟩
  · rintro ⟨r, c, hr, hc, hrow, hcol, hbit⟩
    have hr' : r < (s.spriteBytes n).length := by rwa [State.spriteBytes_length]
    refine ⟨r, hr', c, hc, Fin.ext hrow.symm, Fin.ext hcol.symm, ?_⟩
    rw [State.spriteBytes_getElem]
    exact hbit

/-- The framebuffer and the collision flag after a sprite is drawn. -/
def drawn (vx vy : Byte) (n : Fin 16) (s : State) : DrawState := drawBytes vx vy 0 (s.spriteBytes n.val) (s.fb, false)

section Drawn

variable (vx vy : Byte) (n : Fin 16) (s : State)

theorem pixel_drawn_ne_iff (row : Fin 32) (col : Fin 64) :
    (drawn vx vy n s).1.pixel row col ≠ s.fb.pixel row col ↔ spriteHas vx vy n.val s row col := by
  rw [Ne, drawn, pixel_drawBytes vx vy _ s.fb (by rw [State.spriteBytes_length]; omega), not_not, litBySprite_iff]

theorem drawn_collision_iff :
    (drawn vx vy n s).2 = true ↔ ∃ row col, spriteHas vx vy n.val s row col ∧ s.fb.pixel row col = true := by
  rw [drawn, collision_drawBytes vx vy _ s.fb (by rw [State.spriteBytes_length]; omega)]
  simp only [litBySprite_iff]

/-- A collision is a pixel that goes from set to unset (R223). -/
theorem drawn_collision_iff_unset : (drawn vx vy n s).2 = true ↔
    ∃ row col, s.fb.pixel row col = true ∧ (drawn vx vy n s).1.pixel row col = false := by
  rw [drawn_collision_iff]
  refine exists_congr fun row => exists_congr fun col => ?_
  rw [← pixel_drawn_ne_iff, and_comm]
  refine and_congr_right fun hset => ?_
  rw [hset, Ne, Bool.not_eq_true]

/-- `DRW` with its sprite in range (R223). -/
theorem exec_drw_inRange (x y : Reg) (h : n.val = 0 ∨ s.i.toNat + n.val - 1 ≤ 0xFFF) :
    exec (.drw x y n) s = .next { { s with fb := (drawn (s.reg x) (s.reg y) n s).1, changed := true }.setReg VF
      (Byte.ofFlag (drawn (s.reg x) (s.reg y) n s).2) with pc := s.pc + 2 } :=
  withRange_inRange n.val s _ (by omega)

/-- Drawing what memory holds at the same place on what the first draw left gives the first framebuffer back (R223 (d)). -/
theorem drawn_twice {u : State} (hfb : u.fb = (drawn vx vy n s).1) (hi : u.i = s.i) (hmem : u.mem = s.mem) :
    (drawn vx vy n u).1 = s.fb := by
  refine Framebuffer.eq_of_pixel _ _ fun row col => ?_
  have hfirst := pixel_drawn_ne_iff vx vy n s row col
  have hsecond := pixel_drawn_ne_iff vx vy n u row col
  have himage : spriteHas vx vy n.val u row col ↔ spriteHas vx vy n.val s row col := by
    rw [spriteHas, hi, hmem, spriteHas]
  rw [himage, ← hfirst, hfb] at hsecond
  revert hsecond
  generalize (drawn vx vy n u).1.pixel row col = c
  generalize (drawn vx vy n s).1.pixel row col = b
  generalize s.fb.pixel row col = a
  revert a b c
  decide

end Drawn

end Sys2Proof.Machine

section
open Sys2Proof Sys2Proof.Machine

/-- Settles O42: the toggled pixels are the sprite's, and the flag is the collision. -/
theorem drawXorsTheWrappedSprite : Obligations.DrawXorsTheWrappedSprite := by
  intro x y n s h
  refine ⟨decodeWord_encodeWord (i := .drw x y n) rfl, _, exec_drw_inRange n s x y h,
    pixel_drawn_ne_iff (s.reg x) (s.reg y) n s, ?binary, ?collision, fun r hr => ?others, rfl, rfl, fun _ => rfl⟩
  case binary =>
    rw [State.reg_withPc, State.reg_setReg_same]
    exact (Byte.ofFlag_eq_zero_or_one _).symm
  case collision =>
    rw [State.reg_withPc, State.reg_setReg_same, Byte.ofFlag_eq_one]
    exact drawn_collision_iff_unset (s.reg x) (s.reg y) n s
  case others =>
    rw [State.reg_withPc, State.reg_setReg_other _ _ (List.ne_of_not_mem_cons hr)]
    rfl

/-- Settles O43: the second draw finds the same range, the same sprite and the same place. -/
theorem drawTwiceRestoresTheFramebuffer : Obligations.DrawTwiceRestoresTheFramebuffer := by
  intro x y x' y' n s t u h hexec hfb hi hmem hx hy
  rw [exec_drw_inRange n s x y h] at hexec
  cases hexec
  refine ⟨_, exec_drw_inRange n u x' y' (by rwa [hi]), ?_, rfl, rfl⟩
  rw [hx, hy]
  exact drawn_twice (s.reg x) (s.reg y) n s hfb hi hmem

end

/-! PROOFS. The keypad and the timers (spec/45_keypad_and_timers.md). -/

section
open Sys2Proof Sys2Proof.Machine

/-- Settles O44: with a key index each of the two completes, its condition chooses the directive. -/
theorem keySkipsTestTheKeyLevel : Obligations.KeySkipsTestTheKeyLevel := by
  intro x s h
  refine ⟨⟨decodeWord_encodeWord (i := .skp x) rfl, ?skp⟩, decodeWord_encodeWord (i := .sknp x) rfl, ?sknp⟩
  case skp =>
    rw [exec, execSkp, withKeyIndex_isKey x s _ h]
    exact complete_pc_and_frame (nextPc_skipIf _ s.pc)
  case sknp =>
    rw [exec, execSknp, withKeyIndex_isKey x s _ h]
    refine complete_pc_and_frame ((nextPc_skipIf _ s.pc).trans ?_)
    simp only [Bool.not_eq_true', ← Bool.not_eq_true, ite_not]
    rfl

/-- Settles O45: in a tick the instruction reads the timer that the tick has counted down. -/
theorem readDelayTimer : Obligations.ReadDelayTimer := by
  intro x s
  have hdecode : decodeWord (encodeXKK 0xF x 0x07) = .ldVxDT x := decodeWord_encodeWord (i := .ldVxDT x) rfl
  refine ⟨hdecode, complete_setReg_frame x s.dt s, fun hf hw hfetch => ?_⟩
  obtain ⟨t, hexec, hvalue, -, hframe, -⟩ := complete_setReg_frame x s.atExec.dt s.atExec
  refine ⟨t, (step_of_decodeWord hf hw hfetch hdecode).trans hexec, ?_, ?_⟩
  · rw [hvalue, State.atExec_dt, countDown_toNat]
  · rw [hframe]
    exact countDown_toNat s.dt

/-- Settles O46: each writes one timer and completes; `beep` is whether `ST` is not 0. -/
theorem timerWritesTakeTheRegister : Obligations.TimerWritesTakeTheRegister := fun x _ =>
  ⟨⟨decodeWord_encodeWord (i := .ldDTVx x) rfl, _, complete_next _ _, rfl, rfl, fun _ => rfl⟩,
    decodeWord_encodeWord (i := .ldSTVx x) rfl, _, complete_next _ _, rfl, bne_iff_ne, rfl, fun _ => rfl⟩

/-- Settles O47: the instruction writes `WAIT` and `WAIT_REG` and completes. -/
theorem waitForKeyLatches : Obligations.WaitForKeyLatches := fun x _ =>
  ⟨decodeWord_encodeWord (i := .ldVxK x) rfl, _, complete_next _ _, rfl, rfl, fun _ _ => rfl, rfl, fun _ => rfl⟩

end

/-! PROOFS. The tick (spec/40_execution_cycle.md R120 to R134): the fetch, the halted core, the wait for a key, the self-jump; and what
several ticks in a row do, by induction on their number. -/

namespace Sys2Proof.Machine

/-! ## The fetch -/

/-- The bytes at `PC` are the word fetched, the first one high (R63). -/
theorem State.fetchWord_of_read {s : State} {b0 b1 : Byte} (hpc : s.pc.toNat ≤ 0xFFE) (h0 : s.mem.read s.pc.toNat = b0)
    (h1 : s.mem.read (s.pc.toNat + 1) = b1) : s.fetchWord = some (b0 ++ b1) := by
  rw [s.fetchWord_some hpc, h0, h1]
  rfl

/-- Two bytes written one after the other are both there (R76). -/
theorem Memory.read_two_writes (m : Memory) (a : Nat) (b0 b1 : Byte) :
    ((m.write a b0).write (a + 1) b1).read a = b0 ∧ ((m.write a b0).write (a + 1) b1).read (a + 1) = b1 := by
  rw [Memory.read_write_other _ _ (Nat.ne_of_lt a.lt_succ_self), Memory.read_write_same, Memory.read_write_same]
  exact ⟨rfl, rfl⟩

/-! ## Several ticks -/

theorem runTicks_add {j : Nat} (k : Nat) {s t : State} (h : runTicks j s = .next t) : runTicks (j + k) s = runTicks k t := by
  induction j generalizing s with
  | zero =>
    cases h
    rw [Nat.zero_add]
  | succ j ih =>
    obtain ⟨u, hu⟩ := step_answers_next s
    rw [runTicks_succ j hu] at h
    rw [Nat.succ_add, runTicks_succ _ hu, ih h]

/-- Ticks of a halted core only use up the host's inputs (R121, R266). -/
theorem runTicks_halted (k : Nat) (s : State) (h : s.fault ≠ none) :
    ∃ loading, runTicks k s =
      .next { s with inputs := s.inputs.drop k, draws := s.draws + k, loading := loading } := by
  induction k generalizing s with
  | zero => exact ⟨s.loading, rfl⟩
  | succ k ih =>
    obtain ⟨loading, hrun⟩ := ih s.takeInput h
    refine ⟨loading, (runTicks_succ k (step_halted s h)).trans (hrun.trans ?_)⟩
    simp [State.takeInput, Nat.add_assoc, Nat.add_comm 1]

/-! ## The wait for a key (R123) -/

theorem State.resolveWait_of_noKey {s : State} (h : s.keys = 0) : s.resolveWait = s := by
  rw [State.resolveWait, (State.leastKey_none s).2 h]

theorem State.resolveWait_of_key {s : State} {k : Reg} (h : s.leastKey = some k) :
    s.resolveWait = { s.setReg s.waitReg (BitVec.ofNat 8 k.val) with wait := false } := by
  rw [State.resolveWait, h]
  rfl

/-- A blocked tick that sees no key latches its inputs and nothing else. -/
theorem step_waiting_noKey {s : State} (hf : s.fault = none) (hw : s.wait = true) (hkeys : s.nextInput.keys = 0) :
    step s = .next (s.takeInput.latchInputs s.nextInput) := by
  rw [step_waiting s hf hw, State.resolveWait_of_noKey hkeys]

/-- Ticks that see no key hold all of a waiting core but the latched inputs and `CHANGED` (R123, R278). -/
theorem runTicks_waiting_noKey (k : Nat) (s : State) (hf : s.fault = none) (hw : s.wait = true)
    (hlen : k ≤ s.inputs.length) (hkeys : ∀ inp ∈ s.inputs.take k, inp.keys = 0) :
    ∃ t, runTicks k s = .next t ∧
      t = { s with keys := t.keys, changed := t.changed, rnd := t.rnd, inputs := s.inputs.drop k, draws := t.draws,
                   loading := t.loading } ∧
      (k ≠ 0 → t.keys = 0 ∧ t.changed = false) := by
  induction k generalizing s with
  | zero => exact ⟨s, rfl, rfl, absurd rfl⟩
  | succ k ih =>
    cases hinputs : s.inputs with
    | nil => simp [hinputs] at hlen
    | cons inp rest =>
      have hnext : s.nextInput = inp := by rw [State.nextInput, hinputs]
      rw [hinputs] at hlen hkeys
      have hnone : s.nextInput.keys = 0 := hnext ▸ hkeys inp List.mem_cons_self
      have hrest : (s.takeInput.latchInputs s.nextInput).inputs = rest := congrArg List.tail hinputs
      obtain ⟨t, hrun, hframe, hlast⟩ := ih (s.takeInput.latchInputs s.nextInput) hf hw
        (hrest ▸ Nat.le_of_succ_le_succ hlen) (hrest ▸ fun i hi => hkeys i (List.mem_cons_of_mem _ hi))
      rw [hrest] at hframe
      refine ⟨t, (runTicks_succ k (step_waiting_noKey hf hw hnone)).trans hrun, hframe, fun _ => ?_⟩
      cases k with
      | zero =>
        cases hrun
        exact ⟨hnone, rfl⟩
      | succ k => exact hlast k.succ_ne_zero

/-- A blocked tick that sees keys puts the least one's index into `V[WAIT_REG]`, ends the wait and executes nothing. -/
theorem step_waiting_key {s : State} {k : Fin 16} (hf : s.fault = none) (hw : s.wait = true)
    (hk : s.nextInput.keys.getLsbD k.val = true) (hlt : ∀ j : Fin 16, j < k → s.nextInput.keys.getLsbD j.val = false) :
    step s = .next { (s.takeInput.latchInputs s.nextInput).setReg s.waitReg (BitVec.ofNat 8 k.val) with wait := false } := by
  rw [step_waiting s hf hw, State.resolveWait_of_key ((State.leastKey_some _ k).2 ⟨hk, hlt⟩)]
  rfl

theorem keyIndex_toNat (k : Fin 16) : (BitVec.ofNat 8 k.val).toNat = k.val := by
  rw [BitVec.toNat_ofNat]
  omega

/-- From a waiting core: ticks without a key, then one with keys, deliver the least one's index into `V[WAIT_REG]`, end the wait and
change nothing else but the latched inputs, `CHANGED` and the model's own fields. -/
theorem runTicks_wait_delivers {s : State} {held : List TickInput} {last : TickInput} {k : Fin 16} (hf : s.fault = none)
    (hw : s.wait = true) (hinputs : s.inputs = held ++ [last]) (hheld : ∀ inp ∈ held, inp.keys = 0)
    (hk : last.keys.getLsbD k.val = true) (hlt : ∀ j : Fin 16, j < k → last.keys.getLsbD j.val = false) :
    ∃ u, runTicks (held.length + 1) s = .next u ∧ (u.reg s.waitReg).toNat = k.val ∧ otherRegs [s.waitReg] s u ∧
      u = { s with v := u.v, wait := false, keys := u.keys, changed := u.changed, rnd := u.rnd, inputs := u.inputs,
                   draws := u.draws, loading := u.loading } := by
  obtain ⟨t, hrun, hframe, -⟩ := runTicks_waiting_noKey held.length s hf hw (by simp [hinputs])
    (by simpa [hinputs] using hheld)
  have hnext : t.nextInput = last := by
    have htinputs : t.inputs = [last] := by rw [hframe]; simp [hinputs]
    rw [State.nextInput, htinputs]
  have hkey := step_waiting_key (s := t) (k := k) (by rw [hframe]; exact hf) (by rw [hframe]; exact hw) (hnext ▸ hk)
    (hnext ▸ hlt)
  have hwaitReg : t.waitReg = s.waitReg := by rw [hframe]
  rw [hwaitReg] at hkey
  refine ⟨_, (runTicks_add 1 hrun).trans (runTicks_succ 0 hkey), ?value, fun r hr => ?others, ?frame⟩
  case value => exact (congrArg BitVec.toNat (State.reg_setReg_same _ _ _)).trans (keyIndex_toNat k)
  case others =>
    refine (State.reg_setReg_other _ _ (List.ne_of_not_mem_cons hr)).trans ?_
    change t.reg r = s.reg r
    rw [hframe]
    rfl
  case frame =>
    rw [hframe]
    rfl

/-! ## The core at rest (R134) -/

/-- A tick at rest executes the self-jump: only the timers, the latched inputs and `CHANGED` change. -/
theorem step_atRest {a : BitVec 12} {s : State} (h : s.atRest a) : step s = .next s.atExec := by
  obtain ⟨hpc, hfetch, hw, hf⟩ := h
  rw [step_executing s _ hf hw hfetch, decodeWord_encodeWord rfl]
  refine (complete_next _ _).trans ?_
  change Host.Outcome.next { s.atExec with pc := addrOperand a } = _
  rw [← hpc]
  rfl

theorem State.atRest.atExec {a : BitVec 12} {s : State} (h : s.atRest a) : s.atExec.atRest a := h

theorem runTicks_atRest (k : Nat) {a : BitVec 12} (s : State) (h : s.atRest a) :
    ∃ t, runTicks k s = .next t ∧ t.atRest a ∧ t.dt.toNat = s.dt.toNat - k ∧ t.st.toNat = s.st.toNat - k ∧
      t = { s with dt := t.dt, st := t.st, keys := t.keys, changed := t.changed, rnd := t.rnd, inputs := t.inputs,
                   draws := t.draws, loading := t.loading } := by
  induction k generalizing s with
  | zero => exact ⟨s, rfl, h, rfl, rfl, rfl⟩
  | succ k ih =>
    obtain ⟨t, hrun, hrest, hdt, hst, hframe⟩ := ih s.atExec h.atExec
    refine ⟨t, (runTicks_succ k (step_atRest h)).trans hrun, hrest, ?_, ?_, hframe⟩
    · rw [hdt, State.atExec_dt, countDown_toNat]
      omega
    · rw [hst, State.atExec_st, countDown_toNat]
      omega

end Sys2Proof.Machine

section
open Sys2Proof Sys2Proof.Machine

/-- Settles O6: the step is the executing tick of the word fetched, and decoding its bytes is decoding the word. -/
theorem stepRunsDecodedInstruction : Obligations.StepRunsDecodedInstruction := by
  intro s i hf hw hpc hdecode
  refine ⟨?_, fun inp rest hinputs => by rw [State.nextInput, hinputs]⟩
  have hi : decodeWord (Word.ofBytes (s.mem.read s.pc.toNat) (s.mem.read (s.pc.toNat + 1))) = i := by
    rw [decode_two] at hdecode
    cases hdecode
    rfl
  rw [step_executing s _ hf hw (s.fetchWord_some hpc), hi]
  rfl

/-- Settles O7: the two bytes stored at `PC` are the word that the executing tick fetches. -/
theorem storedBytesAreFetchedBigEndian : Obligations.StoredBytesAreFetchedBigEndian := by
  rintro s a b0 b1 ha hf hw rfl
  obtain ⟨h0, h1⟩ := s.mem.read_two_writes s.pc.toNat b0 b1
  exact step_executing { s with mem := _ } _ hf hw (State.fetchWord_of_read ha h0 h1)

/-- Settles O8: the fault is latched on the state that the tick's earlier steps leave. -/
theorem fetchBeyondMemoryFaults : Obligations.FetchBeyondMemoryFaults := by
  intro s hf hw hpc
  rw [step_unfetchable s hf hw (s.fetchWord_none (by omega))]
  rfl

/-- Settles O9, by induction on the number of ticks. -/
theorem haltedCoreNeverChanges : Obligations.HaltedCoreNeverChanges := by
  intro k s h
  obtain ⟨loading, hrun⟩ := runTicks_halted k s h
  exact ⟨_, hrun, rfl, rfl⟩

/-- Settles O10, by induction on the number of ticks. -/
theorem waitingWithoutKeyHoldsEverything : Obligations.WaitingWithoutKeyHoldsEverything := runTicks_waiting_noKey

/-- Settles O11, by the blocked tick that sees keys. -/
theorem waitEndsWithLeastKey : Obligations.WaitEndsWithLeastKey := by
  intro s k hf hw hk hlt
  refine ⟨_, step_waiting_key hf hw hk hlt, ?value, fun r hr => ?others, rfl, fun _ => rfl⟩
  case value => exact (congrArg BitVec.toNat (State.reg_setReg_same _ _ _)).trans (keyIndex_toNat k)
  case others => exact State.reg_setReg_other _ _ (List.ne_of_not_mem_cons hr)

/-- Settles O27: a word that selects no row decodes to the unrecognized instruction, which completes and writes nothing. -/
theorem unrecognizedWordOnlyAdvances : Obligations.UnrecognizedWordOnlyAdvances := by
  intro w s h
  have hdecode := (decodeWord_eq_unrec_iff w).2 h
  refine ⟨hdecode, complete_next _ _, fun hf hw hfetch => ?_⟩
  exact ⟨_, (step_of_decodeWord hf hw hfetch hdecode).trans (complete_next _ _), countDown_toNat s.dt, countDown_toNat s.st,
    rfl, fun _ => rfl⟩

/-- Settles O48: the tick that executes `LD Vx, K` counts the timers and latches the wait; what follows is the wait's ticks, which hold
everything else. -/
theorem keyWaitDeliversTheKey : Obligations.KeyWaitDeliversTheKey := by
  intro x s first last held k hf hw hfetch hinputs hheld hk hlt
  have hlatch : step s = .next { s.atExec with wait := true, waitReg := x, pc := s.pc + 2 } :=
    step_of_decodeWord hf hw hfetch (decodeWord_encodeWord (i := .ldVxK x) rfl)
  obtain ⟨u, hrun, hvalue, hothers, hframe⟩ :=
    runTicks_wait_delivers (s := { s.atExec with wait := true, waitReg := x, pc := s.pc + 2 }) hf rfl
      (congrArg List.tail hinputs) hheld hk hlt
  have hdt := congrArg (·.dt.toNat) hframe
  have hst := congrArg (·.st.toNat) hframe
  exact ⟨u, (runTicks_succ _ hlatch).trans hrun, hvalue, hothers, by rw [hframe], by rw [hframe],
    hdt.trans (countDown_toNat s.dt), hst.trans (countDown_toNat s.st), fun a => by rw [hframe]; rfl, by rw [hframe]; rfl⟩

/-- Settles O57, by induction on the number of ticks. -/
theorem coreAtRestStaysAtRest : Obligations.CoreAtRestStaysAtRest := by
  intro k a s h
  obtain ⟨t, hrun, hrest, hdt, hst, hframe⟩ := runTicks_atRest k s h
  exact ⟨t, hrun, hrest, hdt, hst, hframe, fun _ => by rw [hframe]⟩

end

/-! PROOFS. Reset, the host's moves and the output ports (spec/10_state.md R41 to R43, spec/70_reset_and_hazards.md). -/

namespace Sys2Proof.Machine

theorem State.mayLoad_iff (s : State) (addr : BitVec 12) : s.mayLoad addr = true ↔ s.loading = true ∧ 0x200 ≤ addr.toNat := by
  rw [State.mayLoad, Bool.and_eq_true, decide_eq_true_iff]
  rfl

/-- A loader write in R305's window. -/
theorem hostMove_load {s : State} {addr : BitVec 12} (data : Byte) (hl : s.loading = true) (ha : 0x200 ≤ addr.toNat) :
    hostMove (.load addr data) s = .next (s.loaderWrite addr data) := by
  rw [hostMove, if_pos ((s.mayLoad_iff addr).2 ⟨hl, ha⟩)]

/-- A loader write outside it has no meaning (R305). -/
theorem hostMove_load_refused {s : State} {addr : BitVec 12} (data : Byte) (h : s.loading = false ∨ addr.toNat < 0x200) :
    hostMove (.load addr data) s = .refused .loaderBreach := by
  rw [hostMove, if_neg]
  rw [s.mayLoad_iff]
  rintro ⟨hl, ha⟩
  rcases h with h | h
  · exact Bool.false_ne_true (h.symm.trans hl)
  · omega

/-- Loading ends with the first tick (R41), whatever kind it is. -/
theorem step_ends_loading {s t : State} (h : step s = .next t) : t.loading = false := by
  obtain ⟨u, hu, hkind⟩ := step_answers s
  obtain rfl := eq_of_step h hu
  obtain ⟨-, rfl⟩ | ⟨-, -, rfl⟩ | ⟨-, -, -, rfl⟩ | ⟨w, -, he⟩ := hkind
  · rfl
  · obtain ⟨v, hv⟩ | hv := (s.takeInput.latchInputs s.nextInput).resolveWait_cases <;> rw [hv] <;> rfl
  · rfl
  · obtain ⟨k, info, -, rfl⟩ | ⟨-, rfl⟩ := exec_cases he
    · rfl
    · exact effect_loading _ _

theorem hostMoves_cons {m : HostMove} (ms : List HostMove) {s t : State} (h : hostMove m s = .next t) :
    hostMoves (m :: ms) s = hostMoves ms t := by
  rw [hostMoves, h]

/-- One move alone. -/
theorem hostMoves_singleton (m : HostMove) (s : State) : hostMoves [m] s = hostMove m s := by
  rw [hostMoves]
  cases hostMove m s <;> rfl

theorem FaultKind.code_ne_zero (k : FaultKind) : k.code ≠ 0 := by
  cases k <;> decide

end Sys2Proof.Machine

section
open Sys2Proof Sys2Proof.Machine

/-- Settles O49, field by field; memory lists no byte, so each reads as its reset contents. -/
theorem resetValues : Obligations.ResetValues := by
  refine ⟨fun x => ?reg, rfl, rfl, rfl, fun k => ?stack, rfl, rfl, fun k => ?font, fun a ha => ?rest,
    fun row col => Framebuffer.pixel_blank row col, rfl, rfl, rfl, rfl, rfl, rfl, rfl, rfl⟩
  case reg => exact Vector.getElem_replicate x.isLt
  case stack => exact Vector.getElem_replicate k.isLt
  case font => exact Memory.resetByte_font k.val k.isLt
  case rest => exact Memory.resetByte_zero a ha

/-- Settles O50, by the definition of the move. -/
theorem resetMoveForgetsEverything : Obligations.ResetMoveForgetsEverything := fun _ => rfl

/-- Settles O51: the move's window, and the kinds of tick, each of which ends loading. -/
theorem loaderWritesOneByteBeforeTheFirstTick : Obligations.LoaderWritesOneByteBeforeTheFirstTick := by
  intro s addr data
  refine ⟨fun hl ha => ⟨_, hostMove_load data hl ha, Memory.read_write_same _ _ _, fun c hc => ?others, rfl⟩,
    hostMove_load_refused data, fun t => step_ends_loading⟩
  case others => exact Memory.read_write_other _ _ (by omega)

/-- Settles O52: after `rst` and the two writes the tick is an executing one, and the word at `PC` is the one loaded. -/
theorem bootExecutesTheFirstWordLoaded : Obligations.BootExecutesTheFirstWordLoaded := by
  intro s b0 b1 inp
  have hrst : hostMove .rst s = .next s.hostReset := rfl
  have hload0 := hostMove_load (s := s.hostReset) (addr := 0x200) b0 rfl (by decide)
  have hload1 := hostMove_load (s := s.hostReset.loaderWrite 0x200 b0) (addr := 0x201) b1 rfl (by decide)
  have hpc : Config.progBase.toNat ≤ 0xFFE := by decide
  obtain ⟨h0, h1⟩ := State.reset.mem.read_two_writes 0x200 b0 b1
  refine ⟨State.atExec { (s.hostReset.loaderWrite 0x200 b0).loaderWrite 0x201 b1 with inputs := inp :: s.inputs },
    ?exec, rfl, h0, h1, fun c hc => ?others⟩
  case exec =>
    rw [hostMoves_cons _ hrst, hostMoves_cons _ hload0, hostMoves_cons _ hload1, hostMoves_singleton]
    exact step_executing { (s.hostReset.loaderWrite 0x200 b0).loaderWrite 0x201 b1 with inputs := inp :: s.inputs }
      _ rfl rfl (State.fetchWord_of_read hpc h0 h1)
  case others =>
    have hne : c ≠ 0x201 ∧ c ≠ 0x200 := by omega
    exact (Memory.read_write_other _ b1 hne.1).trans (Memory.read_write_other _ b0 hne.2)

/-- Settles O53, by the definition of the ports; no fault has code 0. -/
theorem outputPortsAreViews : Obligations.OutputPortsAreViews := by
  intro s
  refine ⟨rfl, rfl, ?beep, ?fault, fun k hk => ?code, rfl⟩
  case beep => exact bne_iff_ne.trans (not_congr (BitVec.toNat_inj (y := 0)).symm)
  case fault =>
    cases hf : s.fault with
    | none => simp [State.outputs, hf]
    | some k =>
      rw [State.outputs, hf]
      exact iff_of_false k.code_ne_zero nofun
  case code => simp [State.outputs, hk]

end
